-- ==== Sys2Proof/Config.lean ====
section
/-! DEFINITION. What a run of CORE fixes and no rule gives a value to: the word width (spec 00_scope.md R6, decision
D1). It is a field the State carries, so that every statement about a state holds for every width. There is no
free value: 93_implementation_defined.md section 2 says no behaviour of CORE is an arbitrary value. -/

namespace Sys2Proof

/-- The open parameter of R6. `WORD_BITS` is a model argument; the step has no argument but the state, so a run's
state carries it, and no step changes it (log entry 1, DESIGN CHOICE). -/
structure Config where
  wordBits : Nat
deriving DecidableEq, Repr

/-- The least width of R6, the smallest whose signed range holds every legal instruction word. -/
def minWordBits : Nat := 18

/-- W >= 18 (R6). -/
abbrev Config.WF (c : Config) : Prop := minWordBits ≤ c.wordBits

end Sys2Proof
end

