-- ==== Sys2Proof/Machine/Launch.lean ====
section
/-! DEFINITION. The word width the model's own reset state carries. The spec leaves the width open (00_scope.md R6,
D1); no statement rests on this value. -/

namespace Sys2Proof.Machine

/-- The width of the state after reset when no host has chosen one: DESIGN CHOICE, the least the spec allows (log
entry 1, unsafe). `State.load` takes any width. -/
def launchConfig : Config := { wordBits := 18 }

end Sys2Proof.Machine
end

