-- ==== Sys2Proof/Word.lean ====
section
/-! DEFINITION. The word of CORE (spec 00_scope.md R6 to R8, 20_memory.md R44): an integer in the signed range of
a width W, held as an integer because every rule computes in exact integers and nothing wraps; and the two
parameter modes with the slot that carries one (30_encoding.md R2, R66). -/

namespace Sys2Proof

/-- A memory word, operand, input, output or ALU result (R7). That it lies in the range of the run's width is the
predicate `InWord`, kept by every step as an invariant. -/
abbrev Word := Int

/-- 2^(W-1), the number of non-negative words of width `W` (R7). -/
def wordLimit (W : Nat) : Int := ((2 ^ (W - 1) : Nat) : Int)

/-- `inWord(v)` of R7: -2^(W-1) <= v <= 2^(W-1) - 1. -/
abbrev InWord (W : Nat) (v : Int) : Prop := -(wordLimit W) ≤ v ∧ v ≤ wordLimit W - 1

/-- The two parameter modes of R2: Positional (digit 0) and Immediate (digit 1). -/
inductive Mode where
  | positional
  | immediate
deriving DecidableEq, Repr

/-- One parameter slot of an instruction: its mode digit and its raw parameter word `r_k` (R60, R66). -/
structure Slot where
  mode : Mode
  raw  : Word
deriving DecidableEq, Repr

end Sys2Proof
end

