-- ==== Sys2Proof/Syntax.lean ====
section
/-! DEFINITION. The instructions of CORE, one constructor per row of spec/opcode_table.json (30_encoding.md R63). -/

namespace Sys2Proof

/-- An instruction with its mode digits and raw parameter words (R60, R66). A source slot is `a`, `b`, `c` or `t`, a
write-target slot is `d`; a mode digit beyond the arity is kept as a bare `Mode`, since it is part of the word
although it has no effect (R73). -/
inductive Instr where
  /-- ADD, opcode 1, `M[dst] <- a + b` (R100). -/
  | add (a b d : Slot)
  /-- MUL, opcode 2, `M[dst] <- a * b` (R101). -/
  | mul (a b d : Slot)
  /-- IN, opcode 3, `M[dst] <- dequeue(inq)` (R110). -/
  | inp (d : Slot) (m2 m3 : Mode)
  /-- OUT, opcode 4, `outlog <- outlog ++ [a]` (R111). -/
  | out (a : Slot) (m2 m3 : Mode)
  /-- JT, opcode 5, jump to `t` if `c` is not 0 (R120). -/
  | jt (c t : Slot) (m3 : Mode)
  /-- JF, opcode 6, jump to `t` if `c` is 0 (R121). -/
  | jf (c t : Slot) (m3 : Mode)
  /-- LT, opcode 7, `M[dst] <- (a < b) ? 1 : 0` (R130). -/
  | lt (a b d : Slot)
  /-- EQ, opcode 8, `M[dst] <- (a = b) ? 1 : 0` (R131). -/
  | eq (a b d : Slot)
  /-- HALT, opcode 99, stop the run (R140). -/
  | halt (m1 m2 m3 : Mode)
deriving DecidableEq, Repr

end Sys2Proof
end

