-- ==== Sys2Proof/WellFormed.lean ====
section
/-! DEFINITION. Well-formed instructions: the mode digits are 0 or 1 by their type (30_encoding.md R65), so what is
left to check is that every raw parameter word is a word of the run's width (R66, 00_scope.md R7). -/

namespace Sys2Proof

/-- The raw parameter words in slot order, exactly `arity` of them (R60, R63). -/
def Instr.raws : Instr → List Word
  | .add a b d => [a.raw, b.raw, d.raw]
  | .mul a b d => [a.raw, b.raw, d.raw]
  | .inp d _ _ => [d.raw]
  | .out a _ _ => [a.raw]
  | .jt c t _ => [c.raw, t.raw]
  | .jf c t _ => [c.raw, t.raw]
  | .lt a b d => [a.raw, b.raw, d.raw]
  | .eq a b d => [a.raw, b.raw, d.raw]
  | .halt _ _ _ => []

/-- Every raw parameter word of the instruction is a word of width `W` (R7, R66: "any word, negative words
included"). -/
abbrev Instr.WellFormed (W : Nat) (i : Instr) : Prop := ∀ r ∈ i.raws, InWord W r

end Sys2Proof
end

