-- ==== Sys2Proof/Decode.lean ====
section
/-! DEFINITION. The decoder and the encoder of CORE (spec 30_encoding.md). The instruction word is read in decimal
(R61); decoding is total and its first failing check is the one reported (R75, 60_exceptions.md R157). -/

namespace Sys2Proof

/-- The opcodes of R63. -/
inductive Op where
  | add | mul | inp | out | jt | jf | lt | eq | halt
deriving DecidableEq, Repr

/-- The opcode's number (R63). -/
def Op.code : Op → Nat
  | .add => 1
  | .mul => 2
  | .inp => 3
  | .out => 4
  | .jt => 5
  | .jf => 6
  | .lt => 7
  | .eq => 8
  | .halt => 99

/-- The opcodes in the table's order (R63). -/
def Op.all : List Op := [.add, .mul, .inp, .out, .jt, .jf, .lt, .eq, .halt]

/-- The opcode with number `n`, if the table of R63 has one (R64). -/
def Op.ofCode? (n : Nat) : Option Op := Op.all.find? (fun op => op.code == n)

/-- The number of parameter slots (R63). -/
def Op.arity : Op → Nat
  | .add => 3
  | .mul => 3
  | .inp => 1
  | .out => 1
  | .jt => 2
  | .jf => 2
  | .lt => 3
  | .eq => 3
  | .halt => 0

/-- The write-target slots (R63). -/
def Op.writeTargets : Op → List Nat
  | .add => [3]
  | .mul => [3]
  | .inp => [1]
  | .out => []
  | .jt => []
  | .jf => []
  | .lt => [3]
  | .eq => [3]
  | .halt => []

/-- Words an instruction occupies: 1 + arity (R72). -/
def Op.width (op : Op) : Nat := 1 + op.arity

/-- The mode a digit stands for; digits 2 to 9 stand for none (R65). -/
def Mode.ofDigit? : Nat → Option Mode
  | 0 => some .positional
  | 1 => some .immediate
  | _ => none

/-- The digit of a mode (R2). -/
def Mode.digit : Mode → Nat
  | .positional => 0
  | .immediate => 1

/-- `digit(w, j)` of R9: the decimal digit of `w` at place 10^j. -/
def digit (w j : Nat) : Nat := w / 10 ^ j % 10

/-- What the instruction word alone decodes to: the opcode and the three mode digits (R75). -/
structure Head where
  op : Op
  m1 : Mode
  m2 : Mode
  m3 : Mode
deriving DecidableEq, Repr

/-- Why an instruction word is illegal: the three causes of a DecodeFault (60_exceptions.md R151). -/
inductive HeadReject where
  /-- `w < 0` or `w > 99999` (R62). -/
  | wordOutOfRange
  /-- `w mod 100` is no opcode (R64). -/
  | unknownOpcode (opcode : Nat)
  /-- The first mode digit that is not 0 or 1, with its slot (R65). -/
  | badModeDigit (slot digit : Nat)
deriving DecidableEq, Repr

/-- The greatest instruction word in decode range (R62). -/
def maxInstrWord : Int := 99999

/-- The instruction word is in decode range (R62). -/
abbrev InDecodeRange (w : Int) : Prop := 0 ≤ w ∧ w ≤ maxInstrWord

/-- The mode of slot `k`, or the rejection of its digit (R65). Slot k's digit stands at place 10^(k+1) (R61). -/
def decodeMode (w k : Nat) : Except HeadReject Mode :=
  match Mode.ofDigit? (digit w (k + 1)) with
  | some m => .ok m
  | none => .error (.badModeDigit k (digit w (k + 1)))

/-- The three mode digits in slot order, whatever the opcode's arity (R65). -/
def decodeModes (op : Op) (w : Nat) : Except HeadReject Head :=
  match decodeMode w 1 with
  | .error r => .error r
  | .ok m1 =>
    match decodeMode w 2 with
    | .error r => .error r
    | .ok m2 =>
      match decodeMode w 3 with
      | .error r => .error r
      | .ok m3 => .ok { op := op, m1 := m1, m2 := m2, m3 := m3 }

/-- Stage D (40_engine_cycle.md R82): range, opcode, mode digits. Total, and reads nothing but `w` (R75). -/
def decodeHead (w : Word) : Except HeadReject Head :=
  if InDecodeRange w then
    match Op.ofCode? (w.toNat % 100) with
    | none => .error (.unknownOpcode (w.toNat % 100))
    | some op => decodeModes op w.toNat
  else .error .wordOutOfRange

/-- The instruction a decoded word and its raw parameter words stand for; words beyond the arity are not used. -/
def Head.instr (h : Head) (r1 r2 r3 : Word) : Instr :=
  match h.op with
  | .add => .add ⟨h.m1, r1⟩ ⟨h.m2, r2⟩ ⟨h.m3, r3⟩
  | .mul => .mul ⟨h.m1, r1⟩ ⟨h.m2, r2⟩ ⟨h.m3, r3⟩
  | .inp => .inp ⟨h.m1, r1⟩ h.m2 h.m3
  | .out => .out ⟨h.m1, r1⟩ h.m2 h.m3
  | .jt => .jt ⟨h.m1, r1⟩ ⟨h.m2, r2⟩ h.m3
  | .jf => .jf ⟨h.m1, r1⟩ ⟨h.m2, r2⟩ h.m3
  | .lt => .lt ⟨h.m1, r1⟩ ⟨h.m2, r2⟩ ⟨h.m3, r3⟩
  | .eq => .eq ⟨h.m1, r1⟩ ⟨h.m2, r2⟩ ⟨h.m3, r3⟩
  | .halt => .halt h.m1 h.m2 h.m3

/-- Why a list of words starts no instruction, in the order the step finds it (R81): the words are those at the
program counter, up to the end of memory. -/
inductive Reject where
  /-- There is no word: stage F, an AddressFault with access Fetch (R152). -/
  | noWord
  /-- The first word is illegal: stage D, a DecodeFault (R151). -/
  | illegal (w : Word) (why : HeadReject)
  /-- Fewer words follow than the opcode's arity: stage A, an ArityFault (R67, R153). -/
  | truncated (w : Word) (arity available : Nat)
deriving DecidableEq, Repr

/-- The decoder: the instruction at the front of the words, with the words after it, or the rejection by name.
Stages F, D and A in their order (R81). -/
def decode : List Word → Except Reject (Instr × List Word)
  | [] => .error .noWord
  | w :: rest =>
    match decodeHead w with
    | .error r => .error (.illegal w r)
    | .ok h =>
      if rest.length < h.op.arity then .error (.truncated w h.op.arity rest.length)
      else .ok (h.instr (rest.getD 0 0) (rest.getD 1 0) (rest.getD 2 0), rest.drop h.op.arity)

/-! ## The encoder -/

/-- The opcode of an instruction. -/
def Instr.op : Instr → Op
  | .add _ _ _ => .add
  | .mul _ _ _ => .mul
  | .inp _ _ _ => .inp
  | .out _ _ _ => .out
  | .jt _ _ _ => .jt
  | .jf _ _ _ => .jf
  | .lt _ _ _ => .lt
  | .eq _ _ _ => .eq
  | .halt _ _ _ => .halt

/-- The opcode and the three mode digits of an instruction. -/
def Instr.head : Instr → Head
  | .add a b d => ⟨.add, a.mode, b.mode, d.mode⟩
  | .mul a b d => ⟨.mul, a.mode, b.mode, d.mode⟩
  | .inp d m2 m3 => ⟨.inp, d.mode, m2, m3⟩
  | .out a m2 m3 => ⟨.out, a.mode, m2, m3⟩
  | .jt c t m3 => ⟨.jt, c.mode, t.mode, m3⟩
  | .jf c t m3 => ⟨.jf, c.mode, t.mode, m3⟩
  | .lt a b d => ⟨.lt, a.mode, b.mode, d.mode⟩
  | .eq a b d => ⟨.eq, a.mode, b.mode, d.mode⟩
  | .halt m1 m2 m3 => ⟨.halt, m1, m2, m3⟩

/-- `op + 100*m1 + 1000*m2 + 10000*m3` (R76). -/
def Head.word (h : Head) : Word :=
  ((h.op.code + 100 * h.m1.digit + 1000 * h.m2.digit + 10000 * h.m3.digit : Nat) : Int)

/-- The instruction word of an instruction (R76). -/
def Instr.word (i : Instr) : Word := i.head.word

/-- The words of an instruction: its instruction word, then its raw parameter words in slot order (R76). -/
def encode (i : Instr) : List Word := i.word :: i.raws

/-- Every (opcode, mode digits) combination in the table's order: the 72 legal words of R74. -/
def legalHeads : List Head :=
  Op.all.flatMap fun op =>
    [Mode.positional, Mode.immediate].flatMap fun m3 =>
      [Mode.positional, Mode.immediate].flatMap fun m2 =>
        [Mode.positional, Mode.immediate].map fun m1 => ⟨op, m1, m2, m3⟩

/-! ## The opcode table's bit numbering

spec/opcode_table.json encodes in decimal and gives no bit fields; the host numbers an instruction's bits from the
least significant bit of its first word. A word is W bits in two's complement (R44, from general knowledge, and
used nowhere else: log entry 8). -/

/-- The word whose W-bit two's complement pattern is `p`. -/
def wordOfBits (W p : Nat) : Word :=
  if p % 2 ^ W < 2 ^ (W - 1) then ((p % 2 ^ W : Nat) : Int) else ((p % 2 ^ W : Nat) : Int) - ((2 ^ W : Nat) : Int)

/-- Word `k` of an instruction whose bits below `nbits` are those of `w`, all bits above being 0. -/
def tableWord (W nbits w k : Nat) : Word := wordOfBits W (w % 2 ^ nbits / 2 ^ (W * k))

/-- The four words (the longest instruction, R66) that hold the instruction of bits `w`. -/
def tableWords (W nbits w : Nat) : List Word :=
  [tableWord W nbits w 0, tableWord W nbits w 1, tableWord W nbits w 2, tableWord W nbits w 3]

/-- The instruction the decoder reads from the bits `w`, in words of the reset state's width. -/
def decodeTableWord (nbits w : Nat) : Option Instr :=
  match decode (tableWords Machine.launchConfig.wordBits nbits w) with
  | .ok (i, _) => some i
  | .error _ => none

end Sys2Proof
end

