-- ==== Sys2Proof/Machine/State.lean ====
section
/-! DEFINITION. The architectural state of CORE (spec 10_state.md R20 to R39) as plain data, the state after reset,
and the two ways a step has no next state. -/

namespace Sys2Proof.Machine

/-- The engine status (R26). Its codes are in `Status.code`. -/
inductive Status where
  | running
  | halted
  | faulted
deriving DecidableEq, Repr

/-- The five kinds of fault (60_exceptions.md R150). -/
inductive FaultKind where
  | decodeFault
  | addressFault
  | arityFault
  | inputExhaustedFault
  | arithmeticOverflowFault
deriving DecidableEq, Repr

/-- The access kinds of an AddressFault (R152). -/
inductive Access where
  | fetch
  | read
  | write
  | jump
  | hostWrite
deriving DecidableEq, Repr

/-- The operations that can overflow (R155). -/
inductive AluOp where
  | add
  | mul
deriving DecidableEq, Repr

/-- The kind-specific detail of a fault record, its `cause` (R151 to R155). -/
inductive Cause where
  /-- DecodeFault: the instruction word is outside 0 to 99999 (R62, R151). -/
  | wordOutOfRange
  /-- DecodeFault: no opcode has this number (R64, R151). -/
  | unknownOpcode (opcode : Nat)
  /-- DecodeFault: the mode digit of this slot is not 0 or 1 (R65, R151). -/
  | badModeDigit (slot digit : Nat)
  /-- AddressFault: `addr` is not a valid address; `slot` is NONE for Fetch, Jump and HostWrite (R152). -/
  | badAddress (access : Access) (slot : Option Nat) (addr : Int)
  /-- ArityFault: fewer parameter words than the opcode's arity (R153). -/
  | missingWords (arity available : Nat)
  /-- InputExhaustedFault, with an empty cause (R154). -/
  | inputExhausted
  /-- ArithmeticOverflowFault: the exact result for `a` and `b` is not a word (R155). -/
  | overflow (operation : AluOp) (a b : Word)
deriving DecidableEq, Repr

/-- The fault record of R27, with the fields R27 names. -/
structure FaultRecord where
  kind   : FaultKind
  code   : Nat
  pc     : Nat
  word   : Option Word
  opcode : Option Nat
  cause  : Cause
deriving DecidableEq, Repr

/-- One listed word of memory: its address and its value. Memory has no bytes (R44), so the cell holds a word. -/
abbrev Cell := Nat × Word

/-- The memory of R22: `size` is N, and `cells` lists the words whose value is not `Memory.unlisted`, addresses
strictly rising (`Memory.wf`; log entry 2). -/
structure Memory where
  size  : Nat
  cells : List Cell
deriving DecidableEq, Repr

/-- The tuple of R20, with the run's word width beside it (R6; log entry 1). -/
structure State where
  /-- The run's parameter W (R6, D1); no step changes it. -/
  cfg    : Config
  /-- The memory, with its size N (R22). -/
  mem    : Memory
  /-- The program counter, a natural number (R24). -/
  pc     : Nat
  /-- The engine status (R26). -/
  status : Status
  /-- The fault record, or NONE (R27). -/
  fault  : Option FaultRecord
  /-- The input queue, front first (R28). -/
  inq    : List Word
  /-- The output log, oldest first (R29). -/
  outlog : List Word
deriving DecidableEq, Repr

/-- Why the machine stops with no next state. An instruction's fault is NOT here: it is a next state whose status
is Faulted and whose record says why (R83, R158). -/
inductive Fault where
  /-- Raised by `step` in a state whose status is Halted: Halted is terminal (R80, R141). Safe. -/
  | noStepHalted
  /-- Raised by `step` in a state whose status is Faulted: Faulted is terminal (R80, R159). Safe. -/
  | noStepFaulted
deriving DecidableEq, Repr

/-- Why an instruction has no meaning. Every instruction of CORE has one, so nothing raises it. -/
inductive Refusal where
  /-- An arm of `exec` whose instruction has no meaning yet. No arm is so; safe. -/
  | notModelled (mnemonic : String)
deriving DecidableEq, Repr

/-- The machine after reset, before any host has loaded a program or supplied an input: pc 0 (R34), status Running
(R35), no fault (R36), an empty output log (R38); the width, the empty memory of size 0 and the empty queue are the
model's (log entries 1, 3 and 4). `State.load` is the reset and load of a run (70_reset_and_hazards.md R180). -/
def State.reset : State :=
  { cfg := launchConfig
    mem := { size := 0, cells := [] }
    pc := 0
    status := .running
    fault := none
    inq := []
    outlog := [] }

end Sys2Proof.Machine
end

