-- ==== Sys2Proof/Machine/Ops.lean ====
section
/-! DEFINITION. The named operations of CORE over memory, the I/O port controller, the program counter and the
status (spec 20_memory.md, 40_engine_cycle.md R83 to R85), taking a fault among them. -/

namespace Sys2Proof.Machine

/-! ## Memory interface (R41 to R43, R58) -/

/-- What an address below N that no cell lists reads as. Every word has a value from the load on (R22), so this only
fixes which value is left out of the list (log entry 2). -/
def Memory.unlisted : Word := 0

/-- The word a list of cells gives to address `a`. -/
def cellAt : List Cell → Nat → Word
  | [], _ => Memory.unlisted
  | (b, v) :: rest, a => if a = b then v else cellAt rest a

/-- The cells with the value `v` put at address `a`, before the first higher address. -/
def putCell : List Cell → Nat → Word → List Cell
  | [], a, v => [(a, v)]
  | (b, u) :: rest, a, v =>
    if a < b then (a, v) :: (b, u) :: rest
    else if a = b then (a, v) :: rest
    else (b, u) :: putCell rest a v

/-- The cells with address `a` given the value `v`: writing the unlisted value takes the address out of the list. -/
def setCell (cells : List Cell) (a : Nat) (v : Word) : List Cell :=
  if v = Memory.unlisted then cells.filter (fun c => decide (c.1 ≠ a)) else putCell cells a v

/-- The addresses of the cells rise strictly. -/
def cellsRise : List Cell → Bool
  | [] => true
  | [_] => true
  | (a, _) :: (b, v) :: rest => decide (a < b) && cellsRise ((b, v) :: rest)

/-- The canonical form of memory: addresses strictly rising and below N, no cell holding the unlisted value. Two
memories in this form with the same N and the same words are equal. -/
def Memory.wf (m : Memory) : Bool :=
  cellsRise m.cells && m.cells.all fun c => decide (c.1 < m.size) && decide (c.2 ≠ Memory.unlisted)

/-- Every listed word is a word of width `W` (R7). The unlisted value, 0, always is. -/
abbrev Memory.InRange (m : Memory) (W : Nat) : Prop := ∀ c ∈ m.cells, InWord W c.2

/-- `valid(a)`: 0 <= a < N (R41). -/
abbrev Memory.Valid (m : Memory) (a : Int) : Prop := 0 ≤ a ∧ a < (m.size : Int)

/-- The word at address `a`, or none where the address is not valid (R42). -/
def Memory.read? (m : Memory) (a : Int) : Option Word :=
  if m.Valid a then some (cellAt m.cells a.toNat) else none

/-- Memory with the word at `a` replaced by `v` (R43). The resolver has checked `a` before (R70); at an address that
is not valid nothing is written, and N never changes (R50). -/
def Memory.write (m : Memory) (a : Int) (v : Word) : Memory :=
  if m.Valid a then { m with cells := setCell m.cells a.toNat v } else m

/-- The cells of the words `ws` placed from address `base` upward. -/
def cellsOf : Nat → List Word → List Cell
  | _, [] => []
  | base, w :: ws => if w = Memory.unlisted then cellsOf (base + 1) ws else (base, w) :: cellsOf (base + 1) ws

/-- The memory whose words are `ws`, N being their number (R22, R33). -/
def Memory.ofWords (ws : List Word) : Memory := { size := ws.length, cells := cellsOf 0 ws }

/-- All N words of memory, address 0 first: what the host reads back in the noun/verb variant (R185). -/
def Memory.words (m : Memory) : List Word := (List.range m.size).map (cellAt m.cells)

/-! ## State updates -/

/-- `wr(a, v)`: the commit of the one memory write (R58, R84). -/
def State.wr (s : State) (a : Int) (v : Word) : State := { s with mem := s.mem.write a v }

/-- `pc <- t` (R9, R85). -/
def State.setPc (s : State) (t : Nat) : State := { s with pc := t }

/-- The sequential advance `pc <- pc + 1 + arity` (R85, R86): it never wraps. -/
def State.advance (s : State) (arity : Nat) : State := s.setPc (s.pc + 1 + arity)

/-- `status <- Halted` (45_halt.md R140): nothing else changes. -/
def State.halt (s : State) : State := { s with status := .halted }

/-! ## I/O port controller (R55) -/

/-- `inEmpty()`: true exactly when `inq = []`. -/
def State.inEmpty (s : State) : Bool := s.inq.isEmpty

/-- `inHead()`: the first element of `inq`, none when it is empty. -/
def State.inHead? (s : State) : Option Word := s.inq.head?

/-- `inPop()`: the first element removed. -/
def State.inPop (s : State) : State := { s with inq := s.inq.tail }

/-- `outPush(v)`: `outlog <- outlog ++ [v]`. -/
def State.outPush (s : State) (v : Word) : State := { s with outlog := s.outlog ++ [v] }

/-- `outreg(S)`: the last output, or EMPTY (R29, C1). A view, not state. -/
def State.outreg (s : State) : Option Word := s.outlog.getLast?

/-! ## Faults (60_exceptions.md R150 to R158) -/

/-- The status codes of R26, for a host that reads the status as a number. -/
def Status.code : Status → Nat
  | .running => 0
  | .halted => 1
  | .faulted => 2

/-- The fault codes of R150. -/
def FaultKind.code : FaultKind → Nat
  | .decodeFault => 1
  | .addressFault => 2
  | .arityFault => 3
  | .inputExhaustedFault => 4
  | .arithmeticOverflowFault => 5

/-- The kind a cause belongs to (R151 to R155). -/
def Cause.kind : Cause → FaultKind
  | .wordOutOfRange => .decodeFault
  | .unknownOpcode _ => .decodeFault
  | .badModeDigit _ _ => .decodeFault
  | .badAddress _ _ _ => .addressFault
  | .missingWords _ _ => .arityFault
  | .inputExhausted => .inputExhaustedFault
  | .overflow _ _ _ => .arithmeticOverflowFault

/-- The record's `opcode` field: `w mod 100` when the word was in decode range, else NONE (R27, R83). -/
def opcodeOf (w : Option Word) : Option Nat :=
  match w with
  | none => none
  | some v => if InDecodeRange v then some (v.toNat % 100) else none

/-- The fault record of a step at `pc` that fetched `w` (R83). -/
def faultRecord (pc : Nat) (w : Option Word) (c : Cause) : FaultRecord :=
  { kind := c.kind, code := c.kind.code, pc := pc, word := w, opcode := opcodeOf w, cause := c }

/-- TAKING A FAULT (R83, R158): status Faulted, the record written, everything else as before the instruction. There
is no handler and no return (R158, R159), so nothing undoes this. -/
def State.raise (s : State) (w : Option Word) (c : Cause) : State :=
  { s with status := .faulted, fault := some (faultRecord s.pc w c) }

/-- The outcome of an instruction that raises a fault in stage R or E. Its fetched word is its own encoding, since a
legal word is the encoding of what it decodes to (R76; log entry 7). -/
def faultOutcome (i : Instr) (s : State) (c : Cause) : Host.Outcome State Fault Refusal :=
  .next (s.raise (some i.word) c)

end Sys2Proof.Machine
end

