-- ==== Sys2Proof/Machine/Flags.lean ====
section
/-! DEFINITION. The ALU (spec 40_engine_cycle.md R87, R88). CORE has no flags (10_state.md R30): what a flag would
hold is the 0 or 1 LT and EQ write to memory, the jumps' own test, and the overflow check, stored nowhere. -/

namespace Sys2Proof.Machine

/-- The exact result `r` of `op` on `a` and `b`, or the overflow fault when it is not a word of width `W` (R88). -/
def checked (W : Nat) (op : AluOp) (a b r : Word) : Except Cause Word :=
  if InWord W r then .ok r else .error (.overflow op a b)

/-- `add(a, b)` (R87). -/
def aluAdd (W : Nat) (a b : Word) : Except Cause Word := checked W .add a b (a + b)

/-- `mul(a, b)` (R87). -/
def aluMul (W : Nat) (a b : Word) : Except Cause Word := checked W .mul a b (a * b)

/-- `lt(a, b)`: 1 if a < b as signed integers, else 0 (R87). -/
def aluLt (a b : Word) : Word := if a < b then 1 else 0

/-- `eq(a, b)`: 1 if a = b, else 0 (R87). -/
def aluEq (a b : Word) : Word := if a = b then 1 else 0

/-- `nz(a)`: a is not 0 (R87). -/
def aluNz (a : Word) : Bool := decide (a ≠ 0)

end Sys2Proof.Machine
end

