-- ==== Sys2Proof/Machine/Operands.lean ====
section
/-! DEFINITION. The parameter resolver (spec 30_encoding.md R67 to R71): every operand form of CORE, the slots taken
in order and the first failing slot reported. -/

namespace Sys2Proof.Machine

/-- `rd_operand(a, k)`: a Positional read of slot `k`, or AddressFault with access Read (R58, R68). -/
def State.rdOperand (s : State) (k : Nat) (a : Word) : Except Cause Word :=
  match s.mem.read? a with
  | some v => .ok v
  | none => .error (.badAddress .read (some k) a)

/-- `chk_dest(a, k)`: the destination check of write-target slot `k`, or AddressFault with access Write (R58, R70). -/
def State.chkDest (s : State) (k : Nat) (a : Word) : Except Cause Word :=
  if s.mem.Valid a then .ok a else .error (.badAddress .write (some k) a)

/-- `chk_target(a)`: the check of a taken jump's target, or AddressFault with access Jump (R58, R120). -/
def State.chkTarget (s : State) (a : Word) : Except Cause Nat :=
  if s.mem.Valid a then .ok a.toNat else .error (.badAddress .jump none a)

/-- The value of source slot `k`: `M[r_k]` in Positional mode (R68), `r_k` itself in Immediate mode (R69). -/
def resolveSrc (s : State) (k : Nat) (p : Slot) : Except Cause Word :=
  match p.mode with
  | .immediate => .ok p.raw
  | .positional => s.rdOperand k p.raw

/-- The destination address of write-target slot `k`: the raw word, whatever the mode digit (R70). -/
def resolveDst (s : State) (k : Nat) (p : Slot) : Except Cause Word := s.chkDest k p.raw

/-- Two source slots, 1 then 2 (format F2; R71). -/
def resolveTwo (s : State) (a b : Slot) : Except Cause (Word × Word) :=
  match resolveSrc s 1 a with
  | .error c => .error c
  | .ok x =>
    match resolveSrc s 2 b with
    | .error c => .error c
    | .ok y => .ok (x, y)

/-- Two source slots and the write-target slot 3 (format F3; R71). -/
def resolveThree (s : State) (a b d : Slot) : Except Cause (Word × Word × Word) :=
  match resolveTwo s a b with
  | .error c => .error c
  | .ok (x, y) =>
    match resolveDst s 3 d with
    | .error c => .error c
    | .ok t => .ok (x, y, t)

end Sys2Proof.Machine
end

