-- ==== Sys2Proof/Machine/Stages.lean ====
section
/-! DEFINITION. Stages R, E and C of the two shapes several instructions share (spec 40_engine_cycle.md R81, R84):
"two sources, a result, one write" and "a condition, a target, a jump or a fall-through". -/

namespace Sys2Proof.Machine

/-- The F3 shape: resolve the slots (R71), compute the result or fault in stage E, then commit the write and the
advance together (R84, R85). Every read sees the memory before the write (R52). -/
def execWrite (i : Instr) (result : Word → Word → Except Cause Word) (a b d : Slot) (s : State) :
    Host.Outcome State Fault Refusal :=
  match resolveThree s a b d with
  | .error c => faultOutcome i s c
  | .ok (x, y, t) =>
    match result x y with
    | .error c => faultOutcome i s c
    | .ok r => .next ((s.wr t r).advance 3)

/-- The F2 shape: both slots are resolved whether or not the jump is taken (D6); a taken jump checks its target and
sets pc to it, an untaken one advances (R85, R120, R121). -/
def execJump (i : Instr) (taken : Word → Bool) (c t : Slot) (s : State) : Host.Outcome State Fault Refusal :=
  match resolveTwo s c t with
  | .error e => faultOutcome i s e
  | .ok (x, y) =>
    if taken x then
      match s.chkTarget y with
      | .error e => faultOutcome i s e
      | .ok a => .next (s.setPc a)
    else .next (s.advance 2)

end Sys2Proof.Machine
end

