-- ==== Sys2Proof/Machine/Arithmetic.lean ====
section
/-! DEFINITION. ADD and MUL (spec 41_arithmetic.md). -/

namespace Sys2Proof.Machine

/-- ADD: `M[dst] <- a + b`, or ArithmeticOverflowFault (R100). -/
def execAdd (a b d : Slot) (s : State) : Host.Outcome State Fault Refusal :=
  execWrite (.add a b d) (aluAdd s.cfg.wordBits) a b d s

/-- MUL: `M[dst] <- a * b`, or ArithmeticOverflowFault (R101). -/
def execMul (a b d : Slot) (s : State) : Host.Outcome State Fault Refusal :=
  execWrite (.mul a b d) (aluMul s.cfg.wordBits) a b d s

end Sys2Proof.Machine
end

