-- ==== Sys2Proof/Machine/Compare.lean ====
section
/-! DEFINITION. LT and EQ (spec 44_compare.md). Neither can overflow: their results, 0 and 1, are words (R87). -/

namespace Sys2Proof.Machine

/-- LT: `M[dst] <- (a < b) ? 1 : 0`, compared as signed integers (R130). -/
def execLt (a b d : Slot) (s : State) : Host.Outcome State Fault Refusal :=
  execWrite (.lt a b d) (fun x y => .ok (aluLt x y)) a b d s

/-- EQ: `M[dst] <- (a = b) ? 1 : 0` (R131). -/
def execEq (a b d : Slot) (s : State) : Host.Outcome State Fault Refusal :=
  execWrite (.eq a b d) (fun x y => .ok (aluEq x y)) a b d s

end Sys2Proof.Machine
end

