-- ==== Sys2Proof/Machine/Halt.lean ====
section
/-! DEFINITION. HALT (spec 45_halt.md), the only system-class instruction (R141). -/

namespace Sys2Proof.Machine

/-- HALT: `status <- Halted`; pc, mem, inq and outlog unchanged, no mode digit has an effect (R140). -/
def execHalt (_m1 _m2 _m3 : Mode) (s : State) : Host.Outcome State Fault Refusal := .next s.halt

end Sys2Proof.Machine
end

