-- ==== Sys2Proof/Machine/InputOutput.lean ====
section
/-! DEFINITION. IN and OUT (spec 42_io.md). -/

namespace Sys2Proof.Machine

/-- IN: `M[dst] <- dequeue(inq)` (R110). The destination is checked before the queue (R157), and a fault leaves the
queue as it was. -/
def execInp (d : Slot) (m2 m3 : Mode) (s : State) : Host.Outcome State Fault Refusal :=
  match resolveDst s 1 d with
  | .error c => faultOutcome (.inp d m2 m3) s c
  | .ok t =>
    match s.inHead? with
    | none => faultOutcome (.inp d m2 m3) s .inputExhausted
    | some x => .next ((s.wr t x).inPop.advance 1)

/-- OUT: `outlog <- outlog ++ [a]` (R111). -/
def execOut (a : Slot) (m2 m3 : Mode) (s : State) : Host.Outcome State Fault Refusal :=
  match resolveSrc s 1 a with
  | .error c => faultOutcome (.out a m2 m3) s c
  | .ok x => .next ((s.outPush x).advance 1)

end Sys2Proof.Machine
end

