-- ==== Sys2Proof/Machine/Jump.lean ====
section
/-! DEFINITION. JT and JF (spec 43_jump.md), the only control transfers (R122). -/

namespace Sys2Proof.Machine

/-- JT: jump to the resolved target if the condition is not 0 (R120). -/
def execJt (c t : Slot) (m3 : Mode) (s : State) : Host.Outcome State Fault Refusal :=
  execJump (.jt c t m3) aluNz c t s

/-- JF: jump to the resolved target if the condition is 0 (R121). -/
def execJf (c t : Slot) (m3 : Mode) (s : State) : Host.Outcome State Fault Refusal :=
  execJump (.jf c t m3) (fun x => !aluNz x) c t s

end Sys2Proof.Machine
end

