-- ==== Sys2Proof/Machine/Dispatch.lean ====
section
/-! DEFINITION. The dispatch of 40_engine_cycle.md R82: nine arms and no default. `exec` is stages R, E and C of an
instruction that stages F, D and A have read; that the status is Running is checked by `step` (log entry 6). -/

namespace Sys2Proof.Machine

def exec (i : Instr) (s : State) : Host.Outcome State Fault Refusal :=
  match i with
  | .add a b d => Sys2Proof.Machine.execAdd a b d s
  | .mul a b d => Sys2Proof.Machine.execMul a b d s
  | .inp d m2 m3 => Sys2Proof.Machine.execInp d m2 m3 s
  | .out a m2 m3 => Sys2Proof.Machine.execOut a m2 m3 s
  | .jt c t m3 => Sys2Proof.Machine.execJt c t m3 s
  | .jf c t m3 => Sys2Proof.Machine.execJf c t m3 s
  | .lt a b d => Sys2Proof.Machine.execLt a b d s
  | .eq a b d => Sys2Proof.Machine.execEq a b d s
  | .halt m1 m2 m3 => Sys2Proof.Machine.execHalt m1 m2 m3 s

end Sys2Proof.Machine
end

