-- ==== Sys2Proof/Machine/Fetch.lean ====
section
/-! DEFINITION. Stages F, D and A (spec 40_engine_cycle.md R81): the words at the program counter, the faults of
reading an instruction from them, and placing an instruction there for `State.withFetchWord`. -/

namespace Sys2Proof.Machine

/-- The words at pc, pc+1, ... that exist, at most as many as the longest instruction has (R60, R66). The decoder uses
no more than 1 + arity of them; reading has no effect (R48), so reading the rest changes nothing (log entry 9). -/
def State.fetchWords (s : State) : List Word :=
  (List.range 4).filterMap fun k => s.mem.read? ((s.pc + k : Nat) : Int)

/-- The cause recorded for an illegal instruction word (60_exceptions.md R151). -/
def headCause : HeadReject → Cause
  | .wordOutOfRange => .wordOutOfRange
  | .unknownOpcode op => .unknownOpcode op
  | .badModeDigit k d => .badModeDigit k d

/-- The Faulted state after the words at pc start no instruction: AddressFault (Fetch), DecodeFault or ArityFault
(R82, R152, R153). -/
def State.raiseReject (s : State) : Reject → State
  | .noWord => s.raise none (.badAddress .fetch none (s.pc : Int))
  | .illegal w why => s.raise (some w) (headCause why)
  | .truncated w arity available => s.raise (some w) (.missingWords arity available)

/-- Memory of at least `n` words, the words there are kept: used only to stand for a load. -/
def Memory.atLeast (m : Memory) (n : Nat) : Memory := { m with size := max m.size n }

/-- Memory with the words `ws` written from address `a` upward. -/
def Memory.place : Memory → Nat → List Word → Memory
  | m, _, [] => m
  | m, a, w :: ws => Memory.place (m.write (a : Int) w) (a + 1) ws

/-- The state with the four words `ws` at its pc and Running, so that the next step fetches them: the load of a
program from outside the machine (70_reset_and_hazards.md R180; log entry 3). -/
def State.placeAtPc (s : State) (ws : List Word) : State :=
  { s with mem := (s.mem.atLeast (s.pc + ws.length)).place s.pc ws, status := .running, fault := none }

end Sys2Proof.Machine
end

