-- ==== Sys2Proof/Machine/Step.lean ====
section
/-! DEFINITION. The step (spec 40_engine_cycle.md R80 to R84). -/

namespace Sys2Proof.Machine

/-- One step, defined only from Running (R80): read an instruction at pc or fault (stages F, D, A), then run it
(stages R, E, C). -/
def step (s : State) : Host.Outcome State Fault Refusal :=
  match s.status with
  | .halted => .fault .noStepHalted
  | .faulted => .fault .noStepFaulted
  | .running =>
    match decode s.fetchWords with
    | .error r => .next (s.raiseReject r)
    | .ok (i, _) => exec i s

/-- The state with the instruction of bits `w` stored at its pc, in words of its own width: the program load that
makes the next step fetch and run it (log entries 3 and 8). -/
def State.withFetchWord (s : State) (nbits w : Nat) : State :=
  s.placeAtPc (tableWords s.cfg.wordBits nbits w)

end Sys2Proof.Machine
end

