-- ==== Sys2Proof/Machine/Loader.lean ====
section
/-! DEFINITION. The host's program-text parser and the load of a run (spec 70_reset_and_hazards.md R180 to R185), which
fix the state CORE starts from. Text is a list of characters. -/

namespace Sys2Proof.Machine

/-! ## The program text (R181) -/

/-- The whitespace of R181 within a line: space, tab, CR. -/
def isBlankChar (c : Char) : Bool := c == ' ' || c == '\t' || c == '\r'

/-- The pieces of a text between the occurrences of a separator; n separators give n + 1 pieces. -/
def splitAt (sep : Char) : List Char → List (List Char)
  | [] => [[]]
  | c :: cs =>
    if c = sep then [] :: splitAt sep cs
    else
      match splitAt sep cs with
      | [] => [[c]]
      | piece :: rest => (c :: piece) :: rest

/-- A text without its leading and trailing whitespace. -/
def trim (cs : List Char) : List Char :=
  ((cs.dropWhile isBlankChar).reverse.dropWhile isBlankChar).reverse

/-- The value of a decimal digit. -/
def digitValue? (c : Char) : Option Nat :=
  if '0'.toNat ≤ c.toNat ∧ c.toNat ≤ '9'.toNat then some (c.toNat - '0'.toNat) else none

/-- The value of a run of decimal digits read after the value `acc`; none where a character is no digit. -/
def digitsValue? : Nat → List Char → Option Nat
  | acc, [] => some acc
  | acc, c :: cs =>
    match digitValue? c with
    | none => none
    | some d => digitsValue? (10 * acc + d) cs

/-- The value of `[0-9]+`. -/
def naturalValue? (cs : List Char) : Option Nat :=
  match cs with
  | [] => none
  | _ :: _ => digitsValue? 0 cs

/-- The integer a token `[+-]?[0-9]+` denotes; none where the token does not match (R181). -/
def integerValue? (cs : List Char) : Option Int :=
  match cs with
  | '+' :: ds => (naturalValue? ds).map fun n => (n : Int)
  | '-' :: ds => (naturalValue? ds).map fun n => -(n : Int)
  | _ => (naturalValue? cs).map fun n => (n : Int)

/-- Why a program text is refused before any run: a ParseError, never a CORE fault (R156, R182). -/
inductive ParseError where
  /-- There is not exactly one non-blank line (R181). -/
  | lineCount (nonBlank : Nat)
  /-- The token at this index is no integer (R181, R182). -/
  | badToken (index : Nat)
  /-- The token at this index denotes an integer that is not a word (R181). -/
  | notAWord (index : Nat)
deriving DecidableEq, Repr

/-- The words the tokens denote, the first token having index `k`. -/
def parseTokens (W : Nat) : Nat → List (List Char) → Except ParseError (List Word)
  | _, [] => .ok []
  | k, t :: ts =>
    match integerValue? (trim t) with
    | none => .error (.badToken k)
    | some v =>
      if InWord W v then
        match parseTokens W (k + 1) ts with
        | .error e => .error e
        | .ok vs => .ok (v :: vs)
      else .error (.notAWord k)

/-- The program image a text denotes (R181): exactly one non-blank line, split at its commas. -/
def parseProgram (W : Nat) (text : List Char) : Except ParseError (List Word) :=
  match (splitAt '\n' text).filter (fun line => !line.all isBlankChar) with
  | [line] => parseTokens W 0 (splitAt ',' line)
  | lines => .error (.lineCount lines.length)

/-! ## Writing a program text (R78, R181) -/

/-- A natural number in decimal digits. -/
def naturalText (n : Nat) : List Char := Nat.toDigits 10 n

/-- An integer in decimal, a minus sign before a negative one. -/
def integerText (v : Int) : List Char :=
  if v < 0 then '-' :: naturalText v.natAbs else naturalText v.natAbs

/-- Pieces of text with a separator between them. -/
def joinWith (sep : List Char) : List (List Char) → List Char
  | [] => []
  | [p] => p
  | p :: q :: rest => p ++ sep ++ joinWith sep (q :: rest)

/-- The program text of an image: its words from address 0 upward, separated by commas (R78). -/
def programText (ws : List Word) : List Char := joinWith [','] (ws.map integerText)

/-! ## Reset and load (R180, R189) -/

/-- The clean-entry state of R189: memory is the image, pc 0, Running, no fault, the inputs in the queue, an empty
log (R33 to R38). -/
def State.load (cfg : Config) (image inputs : List Word) : State :=
  { cfg := cfg
    mem := Memory.ofWords image
    pc := 0
    status := .running
    fault := none
    inq := inputs
    outlog := [] }

/-- The record returned when the noun and verb do not fit: AddressFault, access HostWrite, at pc 0 with no word, its
address the first of 1 and 2 that is not valid (R152, R185). -/
def hostWriteFault (a : Int) : FaultRecord := faultRecord 0 none (.badAddress .hostWrite none a)

/-- The load of the noun/verb variant (R185 steps 1 and 2): no inputs, `M[1] <- noun`, `M[2] <- verb`, or the
HostWrite fault when N < 3, in which case there is no run. -/
def State.loadNounVerb (cfg : Config) (image : List Word) (noun verb : Word) : Except FaultRecord State :=
  let s := State.load cfg image []
  if s.mem.Valid 1 then
    if s.mem.Valid 2 then .ok ((s.wr 1 noun).wr 2 verb) else .error (hostWriteFault 2)
  else .error (hostWriteFault 1)

end Sys2Proof.Machine
end

