-- ==== Sys2Proof/Machine/Assembler.lean ====
section
/-! DEFINITION. The spec's assembly syntax (30_encoding.md R77, R78): statements, their words, and their text. It has no
behaviour (D19); it says which words a listing stands for and how a word is printed. -/

namespace Sys2Proof.Machine

/-- An operand (R77): `[a]`, digit 0, or `#v`, digit 1. -/
inductive Operand where
  | bracket (a : Int)
  | hash (v : Int)
deriving DecidableEq, Repr

/-- A statement: an instruction with its operands (R77), or `DATA` with its words (R78). -/
inductive Stmt where
  | instr (op : Op) (operands : List Operand)
  | data (words : List Int)
deriving DecidableEq, Repr

/-- One line of a listing: the optional address prefix, and the statement (R77). -/
structure AsmLine where
  addr : Option Nat
  stmt : Stmt
deriving DecidableEq, Repr

/-- Why a listing is refused. The spec gives no error names; these are the model's (log entry 11). -/
inductive AsmError where
  /-- The operand count is not the mnemonic's arity (R77). -/
  | operandCount (op : Op) (count : Nat)
  /-- The form `#v` stands in a dst slot (R77). -/
  | hashDestination (op : Op) (slot : Nat)
  /-- The address prefix is not the address of the statement's first word (R77). -/
  | wrongAddress (written actual : Nat)
  /-- The line's text is no statement (R77, R78). -/
  | badLine (text : List Char)
deriving DecidableEq, Repr

/-- The mnemonics of R63. -/
def mnemonicText : Op → List Char
  | .add => ['A', 'D', 'D']
  | .mul => ['M', 'U', 'L']
  | .inp => ['I', 'N']
  | .out => ['O', 'U', 'T']
  | .jt => ['J', 'T']
  | .jf => ['J', 'F']
  | .lt => ['L', 'T']
  | .eq => ['E', 'Q']
  | .halt => ['H', 'A', 'L', 'T']

/-- The directive of R78. -/
def dataMnemonic : List Char := ['D', 'A', 'T', 'A']

/-- The slot an operand form stands for: its mode digit and its raw word. -/
def Operand.slot : Operand → Slot
  | .bracket a => ⟨.positional, a⟩
  | .hash v => ⟨.immediate, v⟩

/-- The operand is allowed in slot `k` of `op`: `#v` is not used for a dst slot (R77). -/
def Operand.fits (op : Op) (k : Nat) : Operand → Bool
  | .bracket _ => true
  | .hash _ => !op.writeTargets.contains k

/-- The first slot whose operand does not fit, slots counted from `k`. -/
def misfit? (op : Op) : Nat → List Operand → Option Nat
  | _, [] => none
  | k, o :: os => if o.fits op k then misfit? op (k + 1) os else some k

/-- The instruction of an opcode with its slots in order; a mode digit beyond the arity is 0 (R77). -/
def instrOfSlots (op : Op) (slots : List Slot) : Instr :=
  let p := fun k => slots.getD k ⟨.positional, 0⟩
  Head.instr ⟨op, (p 0).mode, (p 1).mode, (p 2).mode⟩ (p 0).raw (p 1).raw (p 2).raw

/-- The words a statement assembles to (R76 to R78). -/
def assembleStmt : Stmt → Except AsmError (List Word)
  | .data ws => .ok ws
  | .instr op os =>
    if os.length = op.arity then
      match misfit? op 1 os with
      | some k => .error (.hashDestination op k)
      | none => .ok (encode (instrOfSlots op (os.map Operand.slot)))
    else .error (.operandCount op os.length)

/-- The words of a listing whose first word stands at address `here`, every address prefix checked (R77, R78). -/
def assembleFrom : Nat → List AsmLine → Except AsmError (List Word)
  | _, [] => .ok []
  | here, line :: rest =>
    if line.addr = none ∨ line.addr = some here then
      match assembleStmt line.stmt with
      | .error e => .error e
      | .ok ws =>
        match assembleFrom (here + ws.length) rest with
        | .error e => .error e
        | .ok vs => .ok (ws ++ vs)
    else .error (.wrongAddress (line.addr.getD 0) here)

/-- The words of a listing, address 0 first (R78). -/
def assemble (lines : List AsmLine) : Except AsmError (List Word) := assembleFrom 0 lines

/-! ## The disassembler (R77) -/

/-- The operand a slot is printed as. -/
def slotOperand (p : Slot) : Operand :=
  match p.mode with
  | .positional => .bracket p.raw
  | .immediate => .hash p.raw

/-- The operands an instruction is printed with: a dst slot always as `[a]` (R77). -/
def instrOperands : Instr → List Operand
  | .add a b d => [slotOperand a, slotOperand b, .bracket d.raw]
  | .mul a b d => [slotOperand a, slotOperand b, .bracket d.raw]
  | .inp d _ _ => [.bracket d.raw]
  | .out a _ _ => [slotOperand a]
  | .jt c t _ => [slotOperand c, slotOperand t]
  | .jf c t _ => [slotOperand c, slotOperand t]
  | .lt a b d => [slotOperand a, slotOperand b, .bracket d.raw]
  | .eq a b d => [slotOperand a, slotOperand b, .bracket d.raw]
  | .halt _ _ _ => []

/-- The mode digits of an instruction that have no effect: those of its dst slot and those beyond its arity (R70, R73). -/
def idleDigits : Instr → List Mode
  | .add _ _ d => [d.mode]
  | .mul _ _ d => [d.mode]
  | .inp d m2 m3 => [d.mode, m2, m3]
  | .out _ m2 m3 => [m2, m3]
  | .jt _ _ m3 => [m3]
  | .jf _ _ m3 => [m3]
  | .lt _ _ d => [d.mode]
  | .eq _ _ d => [d.mode]
  | .halt m1 m2 m3 => [m1, m2, m3]

/-- What the disassembler prints for an instruction: a digit 1 of a dst slot is lost, and so is one beyond the arity,
for which the syntax has no form (R77; log entry 11). -/
def disassemble (i : Instr) : Stmt := .instr i.op (instrOperands i)

/-- The statement a listing holds for an instruction's words: the printed instruction where it assembles to them, else
`DATA` (R77). -/
def listingStmt (i : Instr) : Stmt :=
  if assembleStmt (disassemble i) = .ok (encode i) then disassemble i else .data (encode i)

/-! ## Text (R77, R78) -/

/-- The text of an operand. -/
def Operand.text : Operand → List Char
  | .bracket a => '[' :: integerText a ++ [']']
  | .hash v => '#' :: integerText v

/-- The text of a statement. -/
def Stmt.text : Stmt → List Char
  | .instr op [] => mnemonicText op
  | .instr op (o :: os) => mnemonicText op ++ ' ' :: joinWith [',', ' '] ((o :: os).map Operand.text)
  | .data ws => dataMnemonic ++ ' ' :: joinWith [',', ' '] (ws.map integerText)

/-- The operand a piece of text stands for; whitespace inside the brackets is trimmed (log entry 11). -/
def parseOperand (cs : List Char) : Option Operand :=
  match trim cs with
  | '#' :: ds => (integerValue? ds).map .hash
  | '[' :: ds =>
    match ds.reverse with
    | ']' :: es => (integerValue? (trim es.reverse)).map .bracket
    | _ => none
  | _ => none

/-- Every piece read, or none where one is refused. -/
def readAll {α : Type} (f : List Char → Option α) : List (List Char) → Option (List α)
  | [] => some []
  | p :: ps =>
    match f p with
    | none => none
    | some x =>
      match readAll f ps with
      | none => none
      | some xs => some (x :: xs)

/-- The comma-separated pieces of the text after a mnemonic; no pieces where there is no text. -/
def pieces (cs : List Char) : List (List Char) :=
  match trim cs with
  | [] => []
  | ds => splitAt ',' ds

/-- The opcode with this mnemonic. -/
def opOfMnemonic? (m : List Char) : Option Op := Op.all.find? fun op => (mnemonicText op) == m

/-- The statement a line's text after its address prefix stands for. -/
def parseStmt (cs : List Char) : Option Stmt :=
  let body := trim cs
  let m := body.takeWhile fun c => !isBlankChar c
  let rest := pieces (body.dropWhile fun c => !isBlankChar c)
  if m = dataMnemonic then
    match readAll (fun p => integerValue? (trim p)) rest with
    | some [] => none
    | some ws => some (.data ws)
    | none => none
  else
    match opOfMnemonic? m with
    | none => none
    | some op => (readAll parseOperand rest).map (.instr op)

/-- The line a text stands for, its comment already removed: an optional `addr:` and a statement. -/
def parseAsmLine (cs : List Char) : Option AsmLine :=
  match splitAt ':' cs with
  | [body] => (parseStmt body).map fun st => { addr := none, stmt := st }
  | [a, body] =>
    match naturalValue? (trim a), parseStmt body with
    | some n, some st => some { addr := some n, stmt := st }
    | _, _ => none
  | _ => none

/-- The lines of a listing: comments removed, lines with nothing else left out. -/
def parseAsmLines : List (List Char) → Except AsmError (List AsmLine)
  | [] => .ok []
  | t :: ts =>
    let code := t.takeWhile fun c => c ≠ ';'
    if code.all isBlankChar then parseAsmLines ts
    else
      match parseAsmLine code with
      | none => .error (.badLine t)
      | some line =>
        match parseAsmLines ts with
        | .error e => .error e
        | .ok rest => .ok (line :: rest)

/-- The words of a listing given as text (R77, R78). -/
def assembleText (text : List Char) : Except AsmError (List Word) :=
  match parseAsmLines (splitAt '\n' text) with
  | .error e => .error e
  | .ok lines => assemble lines

end Sys2Proof.Machine
end

