-- ==== Sys2Proof/Machine/Run.lean ====
section
/-! DEFINITION. A run and the host's two entry points (spec 40_engine_cycle.md R90, 70_reset_and_hazards.md R184, R185,
R187). A run may never end, so it is executed under fuel; running out of fuel is not a CORE outcome (R90) and has a
result of its own name (log entry 10). -/

namespace Sys2Proof.Machine

/-- The final state of the run from `s` (R187): the first state whose status is Halted or Faulted, if it is reached
within `fuel` steps. -/
def finalState : Nat → State → Option State
  | fuel, s =>
    match s.status with
    | .halted => some s
    | .faulted => some s
    | .running =>
      match fuel with
      | 0 => none
      | n + 1 =>
        match step s with
        | .next t => finalState n t
        | .fault _ => none
        | .refused _ => none

/-- What a host gets back (R184, R185, R187). -/
inductive HostResult (α : Type) where
  /-- The text does not parse: no run (R182). -/
  | parseError (e : ParseError)
  /-- `Ok`: the run ended Halted. -/
  | ok (result : α)
  /-- `Err`: the run ended Faulted, or the noun and verb did not fit. -/
  | err (record : FaultRecord)
  /-- The host supplied a value that is not a word, against its duty (R186): no rule says what happens. -/
  | hostDuty
  /-- The fuel ran out: the run has not ended yet, or never will (R90, R187). -/
  | unfinished
deriving DecidableEq, Repr

/-- What the host reads back from the end of a run (R187): `view` of the state when Halted, the record when Faulted. -/
def resultOf {α : Type} (view : State → α) (fuel : Nat) (s : State) : HostResult α :=
  match finalState fuel s with
  | none => .unfinished
  | some t =>
    match t.fault with
    | none => .ok (view t)
    | some r => .err r

/-- `run_to_halt(program_text, inputs)`: the outputs, or the fault (R184). -/
def runToHalt (fuel : Nat) (cfg : Config) (text : List Char) (inputs : List Word) : HostResult (List Word) :=
  match parseProgram cfg.wordBits text with
  | .error e => .parseError e
  | .ok image =>
    if ∀ x ∈ inputs, InWord cfg.wordBits x then resultOf State.outlog fuel (State.load cfg image inputs)
    else .hostDuty

/-- `run_with_noun_verb(program_text, noun, verb)`: the memory after the halt, or the fault (R185). -/
def runWithNounVerb (fuel : Nat) (cfg : Config) (text : List Char) (noun verb : Word) : HostResult (List Word) :=
  match parseProgram cfg.wordBits text with
  | .error e => .parseError e
  | .ok image =>
    if InWord cfg.wordBits noun ∧ InWord cfg.wordBits verb then
      match State.loadNounVerb cfg image noun verb with
      | .error r => .err r
      | .ok s => resultOf (fun t => t.mem.words) fuel s
    else .hostDuty

end Sys2Proof.Machine
end

