-- ==== Sys2Proof/Safety.lean ====
section
/-! DEFINITION. The terms claims are stated in: what a slot reads as, what taking a fault leaves, what a store leaves,
the invariant of every state of a run, and a safe run. They name the spec's rules, not the machine's meanings. -/

namespace Sys2Proof.Machine

/-- The slot `p` is a source whose value is `v` in state `s`: the raw word itself in Immediate mode (R69), the word it
addresses in Positional mode (R68). -/
def ReadsAs (s : State) (p : Slot) (v : Word) : Prop :=
  match p.mode with
  | .immediate => v = p.raw
  | .positional => s.mem.read? p.raw = some v

/-- The slot `p` is a Positional source whose raw word is not a valid address (R68). -/
def ReadsOutside (s : State) (p : Slot) : Prop := p.mode = .positional ∧ ¬s.mem.Valid p.raw

/-- `t` is the state after `s` takes the fault with cause `c` on the fetched word `w` (R83): status Faulted, the
record written field by field, everything else unchanged. -/
structure TakesFault (s : State) (w : Option Word) (c : Cause) (t : State) : Prop where
  status : t.status = .faulted
  record : ∃ r, t.fault = some r ∧ r.kind = c.kind ∧ r.code = c.kind.code ∧ r.pc = s.pc ∧ r.word = w ∧
    r.opcode = opcodeOf w ∧ r.cause = c
  mem : t.mem = s.mem
  pc : t.pc = s.pc
  inq : t.inq = s.inq
  outlog : t.outlog = s.outlog
  cfg : t.cfg = s.cfg

/-- The outcome `o` of an instruction or step in `s` is the fault with cause `c` on the fetched word `w`. -/
def Faults (o : Host.Outcome State Fault Refusal) (s : State) (w : Option Word) (c : Cause) : Prop :=
  ∃ t, o = .next t ∧ TakesFault s w c t

/-- Memory after is memory before with the word at `a` replaced by `v` (R43): every other address reads as before and
N is the same. -/
structure StoresWord (s t : State) (a : Int) (v : Word) : Prop where
  stored : t.mem.read? a = some v
  others : ∀ x : Int, x ≠ a → t.mem.read? x = s.mem.read? x
  size : t.mem.size = s.mem.size

/-- The control state and the run's width are unchanged (R31, R6). -/
structure SameControl (s t : State) : Prop where
  status : t.status = s.status
  fault : t.fault = s.fault
  cfg : t.cfg = s.cfg

/-- The fault record agrees with itself and with the state it was written in (R27, R83, R150). -/
structure RecordSound (s : State) (r : FaultRecord) : Prop where
  kind : r.kind = r.cause.kind
  code : r.code = r.kind.code
  pc : r.pc = s.pc
  opcode : r.opcode = opcodeOf r.word
  word : ∀ w, r.word = some w → InWord s.cfg.wordBits w

/-- What holds of every state of a run: the width is legal (R6), memory is in canonical form and holds words (R7, R22),
pc is at most N (R24), the queue and the log hold words (R28, R29), and there is a record exactly when Faulted
(R27). -/
structure State.Inv (s : State) : Prop where
  width : s.cfg.WF
  canonical : s.mem.wf = true
  memWords : s.mem.InRange s.cfg.wordBits
  pcBound : s.pc ≤ s.mem.size
  inqWords : ∀ x ∈ s.inq, InWord s.cfg.wordBits x
  outlogWords : ∀ x ∈ s.outlog, InWord s.cfg.wordBits x
  faultIff : s.fault.isSome = true ↔ s.status = .faulted
  recordSound : ∀ r, s.fault = some r → RecordSound s r

/-- A state that no fault has ended (92_eei_decisions.md: a Faulted state is never a good final state). -/
def State.Safe (s : State) : Prop := s.status ≠ .faulted

/-- A safe run from `s`: it ends within some fuel, Halted (R187). -/
def HaltsSafely (s : State) : Prop := ∃ fuel t, finalState fuel s = some t ∧ t.status = .halted

end Sys2Proof.Machine
end

