-- ==== Sys2Proof/Certificates/Slice0/Obligations.lean ====
section
/-! DEFINITION. The statements about CORE for the provers. Each docstring names the rules of spec/ it formalises. No
statement rests on the word width of `State.reset`: each holds for every width (log entry 1). D1 to D21 are the spec's own
decisions in 92_eei_decisions.md; a docstring names those its rules rest on. Where a
statement decodes `fetchWords`, the up to four words at pc are the model's way of reading (log entry 9); the decoder
uses 1 + arity of them. -/

open Sys2Proof Sys2Proof.Machine

/-! ## Reset, load and the host's entry points -/

/-- R34, R35: at reset pc is 0 and the status is Running, for the reset state and for every load; and address 0 is the
address of the first instruction executed: the first step of a load runs what the words from address 0 decode to. That
the model reads the first four words there at once, where R46 reads 1 + arity, is DEDUCED (log entry 9). -/
def Obligations.ResetStartsRunningAtZero : Prop :=
  (State.reset.pc = 0 ∧ State.reset.status = .running) ∧
    ∀ cfg image inputs, (State.load cfg image inputs).pc = 0 ∧ (State.load cfg image inputs).status = .running ∧
      (State.load cfg image inputs).fetchWords = image.take 4 ∧
      ∀ i rest, decode (image.take 4) = .ok (i, rest) →
        step (State.load cfg image inputs) = exec i (State.load cfg image inputs)

/-- R36, R38 (which the spec marks as derived): no fault, an empty log, and `outreg` EMPTY. -/
def Obligations.ResetHasNoFaultAndNoOutput : Prop :=
  (State.reset.fault = none ∧ State.reset.outlog = [] ∧ State.reset.outreg = none) ∧
    ∀ cfg image inputs, (State.load cfg image inputs).fault = none ∧ (State.load cfg image inputs).outlog = [] ∧
      (State.load cfg image inputs).outreg = none

/-- R22, R33, R37: N is the image's length, word i of memory is word i of the image, no other address reads, and the
queue is the whole input sequence. -/
def Obligations.LoadPlacesTheImage : Prop :=
  ∀ (cfg : Config) (image inputs : List Word),
    (State.load cfg image inputs).mem.size = image.length ∧
      (∀ i : Nat, (State.load cfg image inputs).mem.read? (i : Int) = image[i]?) ∧
      (∀ a : Int, a < 0 → (State.load cfg image inputs).mem.read? a = none) ∧
      (State.load cfg image inputs).mem.words = image ∧
      (State.load cfg image inputs).inq = inputs

/-- R185 steps 1 and 2, R152 (HostWrite), decision D16 (code 2: R150, decision D9): the noun and verb go to addresses 1
and 2 of the loaded image; an image of one or two words gives the HostWrite record instead, and no run. -/
def Obligations.NounVerbLoad : Prop :=
  ∀ (cfg : Config) (image : List Word) (noun verb : Word),
    (3 ≤ image.length → ∃ s, State.loadNounVerb cfg image noun verb = .ok s ∧
      s.mem.read? 1 = some noun ∧ s.mem.read? 2 = some verb ∧
      (∀ a : Int, a ≠ 1 → a ≠ 2 → s.mem.read? a = (State.load cfg image []).mem.read? a) ∧
      s.mem.size = image.length ∧ s.pc = 0 ∧ s.status = .running ∧ s.fault = none ∧ s.inq = [] ∧ s.outlog = [] ∧
      s.cfg = cfg) ∧
    (image.length = 2 → ∃ r, State.loadNounVerb cfg image noun verb = .error r ∧ r.kind = .addressFault ∧
      r.code = 2 ∧ r.pc = 0 ∧ r.word = none ∧ r.opcode = none ∧ r.cause = .badAddress .hostWrite none 2) ∧
    (image.length = 1 → ∃ r, State.loadNounVerb cfg image noun verb = .error r ∧ r.kind = .addressFault ∧
      r.code = 2 ∧ r.pc = 0 ∧ r.word = none ∧ r.opcode = none ∧ r.cause = .badAddress .hostWrite none 1)

/-- R181, decision D15: parsing succeeds only with N >= 1, and every integer of the image is a word. -/
def Obligations.ParsedImageHoldsWords : Prop :=
  ∀ (W : Nat) (text : List Char) (image : List Word), parseProgram W text = .ok image →
    1 ≤ image.length ∧ ∀ v ∈ image, InWord W v

/-- R78, R181, decisions D15 and D19: the program text written for an image parses back to it. -/
def Obligations.ProgramTextParsesBack : Prop :=
  ∀ (W : Nat) (image : List Word), image ≠ [] → (∀ v ∈ image, InWord W v) →
    parseProgram W (programText image) = .ok image

/-- R184, R187, decisions D11, D17 and D21: `run_to_halt` of a text that parses, with inputs that are words, answers
`Ok(outlog)` when the run ends Halted and `Err(fault)` with the record when it ends Faulted, and nothing while it has
not ended. -/
def Obligations.RunToHaltReportsTheEnd : Prop :=
  ∀ (fuel : Nat) (cfg : Config) (text : List Char) (image inputs : List Word),
    parseProgram cfg.wordBits text = .ok image → (∀ x ∈ inputs, InWord cfg.wordBits x) →
    (∀ t, finalState fuel (State.load cfg image inputs) = some t →
      (t.status = .halted ∧ runToHalt fuel cfg text inputs = .ok t.outlog) ∨
      (t.status = .faulted ∧ ∃ r, t.fault = some r ∧ runToHalt fuel cfg text inputs = .err r)) ∧
    (finalState fuel (State.load cfg image inputs) = none → runToHalt fuel cfg text inputs = .unfinished)

/-- R185 steps 3 and 4, decision D16: the noun/verb variant answers `Ok` of all N words of memory, each as a read gives
it, or `Err(fault)`. -/
def Obligations.RunWithNounVerbReportsMemory : Prop :=
  ∀ (fuel : Nat) (cfg : Config) (text : List Char) (image : List Word) (noun verb : Word) (s t : State),
    parseProgram cfg.wordBits text = .ok image → InWord cfg.wordBits noun → InWord cfg.wordBits verb →
    State.loadNounVerb cfg image noun verb = .ok s → finalState fuel s = some t →
      (t.status = .halted ∧ ∃ ws, runWithNounVerb fuel cfg text noun verb = .ok ws ∧ ws.length = image.length ∧
        ∀ i : Nat, t.mem.read? (i : Int) = ws[i]?) ∨
      (t.status = .faulted ∧ ∃ r, t.fault = some r ∧ runWithNounVerb fuel cfg text noun verb = .err r)

/-! ## The invariant -/

/-- The reset state meets the invariant (10_state.md section 8). -/
def Obligations.ResetMeetsInvariant : Prop := State.reset.Inv

/-- R189 (which the spec marks as derived): every load with a legal width, and an image and inputs of words, meets the
invariant; so does the noun/verb load. -/
def Obligations.LoadMeetsInvariant : Prop :=
  ∀ (cfg : Config) (image inputs : List Word), cfg.WF → (∀ v ∈ image, InWord cfg.wordBits v) →
    ((∀ x ∈ inputs, InWord cfg.wordBits x) → (State.load cfg image inputs).Inv) ∧
      ∀ noun verb s, InWord cfg.wordBits noun → InWord cfg.wordBits verb →
        State.loadNounVerb cfg image noun verb = .ok s → s.Inv

/-- R7, R22, R24, R27 to R29, R83, decisions D1, D2, D7 and D9: every step keeps the invariant: memory stays canonical
and holds words, pc stays at most N, the queue and the log hold words, and there is a sound record exactly when Faulted.
-/
def Obligations.StepKeepsInvariant : Prop :=
  ∀ s t : State, s.Inv → step s = .next t → t.Inv

/-- R6, R22, R50, decision D20: no step changes the word width or N, from any state. -/
def Obligations.StepKeepsWidthAndSize : Prop :=
  ∀ s t : State, step s = .next t → t.cfg = s.cfg ∧ t.mem.size = s.mem.size

/-- R22, and the model's canonical form (log entry 2): memory in that form is determined by N and by what its addresses
read as. -/
def Obligations.CanonicalMemoryIsItsWords : Prop :=
  ∀ m₁ m₂ : Memory, m₁.wf = true → m₂.wf = true → m₁.size = m₂.size →
    (∀ a : Int, m₁.read? a = m₂.read? a) → m₁ = m₂

/-- R66: in a state that meets the invariant, the instruction read at pc is well-formed. -/
def Obligations.DecodedInstructionIsWellFormed : Prop :=
  ∀ (s : State) (i : Instr) (rest : List Word), s.Inv → decode s.fetchWords = .ok (i, rest) →
    i.WellFormed s.cfg.wordBits

/-! ## The step -/

/-- R80: a step is defined exactly from Running; it ends Running, Halted from HALT, or Faulted with a record. -/
def Obligations.StepOnlyFromRunning : Prop :=
  ∀ s : State,
    (s.status = .running → ∃ t, step s = .next t ∧
      (t.status = .running ∨
        (t.status = .halted ∧ ∃ m1 m2 m3 rest, decode s.fetchWords = .ok (.halt m1 m2 m3, rest)) ∨
        (t.status = .faulted ∧ t.fault.isSome = true))) ∧
    (s.status ≠ .running → ∀ t, step s ≠ .next t)

/-- R82: when the words at pc decode to an instruction, a Running step is that instruction's execution. -/
def Obligations.StepRunsDecodedInstruction : Prop :=
  ∀ (s : State) (i : Instr) (rest : List Word), s.status = .running →
    decode s.fetchWords = .ok (i, rest) → step s = exec i s

/-- R60, R76 (which the spec marks as derived), R82: when the words of an instruction's encoding stand at pc, a Running
step is that instruction's execution, whatever words follow. -/
def Obligations.StepRunsEncodedInstruction : Prop :=
  ∀ (s : State) (i : Instr), s.status = .running →
    (∀ (k : Nat) (w : Word), (encode i)[k]? = some w → s.mem.read? ((s.pc + k : Nat) : Int) = some w) →
    step s = exec i s

/-- R83, decisions D9 and D10: a step that ends Faulted has written the record (its pc the step's, its word the fetched
one or NONE, its opcode `w mod 100` in decode range, its code that of its kind) and has changed nothing else; and no
step follows. -/
def Obligations.FaultWritesTheRecordOnly : Prop :=
  ∀ s t : State, step s = .next t → t.status = .faulted →
    (∃ r, t.fault = some r ∧ r.kind = r.cause.kind ∧ r.code = r.kind.code ∧ r.pc = s.pc ∧
      r.word = s.mem.read? (s.pc : Int) ∧
      (∀ w : Word, r.word = some w → 0 ≤ w → w ≤ 99999 → r.opcode = some (w.toNat % 100)) ∧
      (∀ w : Word, r.word = some w → (w < 0 ∨ 99999 < w) → r.opcode = none) ∧
      (r.word = none → r.opcode = none)) ∧
    t.mem = s.mem ∧ t.pc = s.pc ∧ t.inq = s.inq ∧ t.outlog = s.outlog ∧ t.cfg = s.cfg ∧
    (∀ u, step t ≠ .next u)

/-- R25, R85, decision D7: pc changes only by the sequential advance of the decoded instruction, or by JT or JF to a
valid address; after HALT or a fault it is unchanged. -/
def Obligations.ProgramCounterWrittenInTwoWays : Prop :=
  ∀ s t : State, step s = .next t → t.pc ≠ s.pc →
    ∃ i rest, decode s.fetchWords = .ok (i, rest) ∧
      (t.pc = s.pc + 1 + i.op.arity ∨
        (((∃ c d m, i = .jt c d m) ∨ ∃ c d m, i = .jf c d m) ∧ s.mem.Valid (t.pc : Int)))

/-- R28, R56: only IN changes the queue, and it takes exactly the front element. -/
def Obligations.OnlyInputTakesFromTheQueue : Prop :=
  ∀ s t : State, step s = .next t → t.inq ≠ s.inq →
    (∃ d m2 m3 rest, decode s.fetchWords = .ok (.inp d m2 m3, rest)) ∧ ∃ x, s.inq = x :: t.inq

/-- R29, R56: only OUT changes the log, and it appends exactly one word. -/
def Obligations.OnlyOutputAppendsToTheLog : Prop :=
  ∀ s t : State, step s = .next t → t.outlog ≠ s.outlog →
    (∃ a m2 m3 rest, decode s.fetchWords = .ok (.out a m2 m3, rest)) ∧ ∃ x, t.outlog = s.outlog ++ [x]

/-- R40, R57: the log is never read: a step from a state with more output before it does the same and keeps it. -/
def Obligations.OutputLogIsNeverRead : Prop :=
  ∀ (s t : State) (before : List Word), step s = .next t →
    step { s with outlog := before ++ s.outlog } = .next { t with outlog := before ++ t.outlog }

/-- R7, R88, decisions D1 and D2: a step does the same at every greater word width, whether it completes or takes a
fault of any kind but ArithmeticOverflowFault; a step that overflows either does the same there too or completes, still
Running and 4 words on. -/
def Obligations.WiderWordsOnlyRemoveOverflow : Prop :=
  ∀ (s t : State) (W : Nat), s.cfg.wordBits ≤ W → step s = .next t →
    ((t.status = .faulted → ∀ r, t.fault = some r → r.kind ≠ .arithmeticOverflowFault) →
      step { s with cfg := ⟨W⟩ } = .next { t with cfg := ⟨W⟩ }) ∧
    (∀ r, t.status = .faulted → t.fault = some r → r.kind = .arithmeticOverflowFault →
      step { s with cfg := ⟨W⟩ } = .next { t with cfg := ⟨W⟩ } ∨
        ∃ u, step { s with cfg := ⟨W⟩ } = .next u ∧ u.status = .running ∧ u.pc = s.pc + 4)

/-! ## The run -/

/-- R90, R187, decisions D14 and D21; the fuel is the model's (log entry 10): the final state of a run does not depend
on the executor's fuel, is Halted or Faulted, and has no step. -/
def Obligations.FinalStateIsTerminal : Prop :=
  ∀ (n k : Nat) (s t : State), finalState n s = some t →
    finalState (n + k) s = some t ∧ t.status ≠ .running ∧ ∀ u, step t ≠ .next u

/-- R28, R29, R90: over a run the log only grows at its end, the queue only shrinks at its front, and the invariant
holds at the end if it held at the start. -/
def Obligations.RunGrowsOutputAndDrainsInput : Prop :=
  ∀ (n : Nat) (s t : State), finalState n s = some t →
    (∃ added, t.outlog = s.outlog ++ added) ∧ (∃ taken, s.inq = taken ++ t.inq) ∧
      t.mem.size = s.mem.size ∧ t.cfg = s.cfg ∧ (s.Inv → t.Inv)

/-- R90, R120, decision D14; the fuel is the model's (log entry 10): a taken JT to its own address is a run that never
ends: no amount of fuel gives it a final state. -/
def Obligations.SelfJumpNeverEnds : Prop :=
  ∀ (s : State) (x : Word) (m3 : Mode) (rest : List Word), s.status = .running → x ≠ 0 →
    decode s.fetchWords = .ok (.jt ⟨.immediate, x⟩ ⟨.immediate, (s.pc : Int)⟩ m3, rest) →
    s.pc < s.mem.size → ∀ fuel, finalState fuel s = none

/-! ## Encoding -/

/-- R76 (which the spec marks as derived): decoding the words of an instruction gives it back, with every mode digit and
every raw word, and leaves the words after it. -/
def Obligations.DecodeEncodeRoundTrip : Prop :=
  ∀ (i : Instr) (rest : List Word), decode (encode i ++ rest) = .ok (i, rest)

/-- R61, R75, R76 (the last two the spec marks as derived): an instruction is decoded from no other words than its own
encoding. -/
def Obligations.DecodedWordsAreTheEncoding : Prop :=
  ∀ (ws : List Word) (i : Instr) (rest : List Word), decode ws = .ok (i, rest) → ws = encode i ++ rest

/-- R74, decisions D3 to D5: the legal instruction words are 72 different words, `op + 100*m1 + 1000*m2 + 10000*m3` with
`op` an opcode and each digit 0 or 1, and every other word fetched as an instruction raises DecodeFault. -/
def Obligations.LegalWordsAreSeventyTwo : Prop :=
  (legalHeads.map Head.word).length = 72 ∧ (legalHeads.map Head.word).Nodup ∧
    (∀ w : Word, w ∈ legalHeads.map Head.word ↔
      ∃ op ∈ [1, 2, 3, 4, 5, 6, 7, 8, 99], ∃ m1 ∈ [0, 1], ∃ m2 ∈ [0, 1], ∃ m3 ∈ [0, 1],
        w = op + 100 * m1 + 1000 * m2 + 10000 * m3) ∧
    (∀ w : Word, (∃ h, decodeHead w = .ok h) ↔ w ∈ legalHeads.map Head.word) ∧
    (∀ (s : State) (w : Word), s.status = .running → s.mem.read? (s.pc : Int) = some w →
      w ∉ legalHeads.map Head.word → ∃ c, Faults (step s) s (some w) c ∧ c.kind = .decodeFault)

/-- R63: the opcode map, as (opcode, arity, width, write-target slots). -/
def Obligations.OpcodeMap : Prop :=
  Op.all.map (fun op => (op.code, op.arity, op.width, op.writeTargets)) =
    [(1, 3, 4, [3]), (2, 3, 4, [3]), (3, 1, 2, [1]), (4, 1, 2, []), (5, 2, 3, []), (6, 2, 3, []), (7, 3, 4, [3]),
      (8, 3, 4, [3]), (99, 0, 1, [])]

/-- R61, R63, 95_test_vectors.md section 2.1: words written out from the encoding decode to what they stand for. -/
def Obligations.SpecWordsDecode : Prop :=
  decode [1002, 4, 3, 4, 33] = .ok (.mul ⟨.positional, 4⟩ ⟨.immediate, 3⟩ ⟨.positional, 4⟩, [33]) ∧
    decode [11101, 2, -3, 5] = .ok (.add ⟨.immediate, 2⟩ ⟨.immediate, -3⟩ ⟨.immediate, 5⟩, []) ∧
    decode [103, 3] = .ok (.inp ⟨.immediate, 3⟩ .positional .positional, []) ∧
    decode [10004, 0] = .ok (.out ⟨.positional, 0⟩ .positional .immediate, []) ∧
    decode [1105, -1, 4] = .ok (.jt ⟨.immediate, -1⟩ ⟨.immediate, 4⟩ .positional, []) ∧
    decode [1006, 15, 14] = .ok (.jf ⟨.positional, 15⟩ ⟨.immediate, 14⟩ .positional, []) ∧
    decode [1107, 3, 5, 5] = .ok (.lt ⟨.immediate, 3⟩ ⟨.immediate, 5⟩ ⟨.positional, 5⟩, []) ∧
    decode [8, 9, 10, 9] = .ok (.eq ⟨.positional, 9⟩ ⟨.positional, 10⟩ ⟨.positional, 9⟩, []) ∧
    decode [199] = .ok (.halt .immediate .positional .positional, [])

/-! ## Faults of reading an instruction -/

/-- R64 and R151, with R62 and R65 (decisions D3 to D5), the order of R75 (which the spec marks as derived) and R157
(decision D8), and code 1 of R150 (decision D9): the three causes of a DecodeFault, each exactly where the earlier ones
do not apply. The word is `n` in the second and third clause; its digit for slot k stands at place 10^(k+1). -/
def Obligations.DecodeFaultCauses : Prop :=
  ∀ (s : State) (w : Word), s.status = .running → s.mem.read? (s.pc : Int) = some w →
    ((w < 0 ∨ 99999 < w) → ∃ t, step s = .next t ∧ TakesFault s (some w) .wordOutOfRange t ∧
      ∃ r, t.fault = some r ∧ r.kind = .decodeFault ∧ r.code = 1 ∧ r.opcode = none) ∧
    (∀ n : Nat, w = (n : Int) → n ≤ 99999 → n % 100 ∉ [1, 2, 3, 4, 5, 6, 7, 8, 99] →
      Faults (step s) s (some w) (.unknownOpcode (n % 100))) ∧
    (∀ n k : Nat, w = (n : Int) → n ≤ 99999 → n % 100 ∈ [1, 2, 3, 4, 5, 6, 7, 8, 99] → k ∈ [1, 2, 3] →
      2 ≤ n / 10 ^ (k + 1) % 10 → (∀ j, 1 ≤ j → j < k → n / 10 ^ (j + 1) % 10 ≤ 1) →
      Faults (step s) s (some w) (.badModeDigit k (n / 10 ^ (k + 1) % 10)))

/-- R82, R85, R152 (Fetch), decision D7: a Running step at an address that is not valid raises AddressFault with access
Fetch, the address pc, and no word. -/
def Obligations.FetchPastTheEndFaults : Prop :=
  ∀ s : State, s.status = .running → s.mem.size ≤ s.pc →
    Faults (step s) s none (.badAddress .fetch none (s.pc : Int))

/-- R153: ArityFault with `available = N - 1 - pc` is raised when fewer words than the arity follow, and only then; HALT
never raises it. -/
def Obligations.ArityFaultWhenWordsAreMissing : Prop :=
  ∀ (s : State) (w : Word) (h : Head), s.status = .running → s.fault = none → s.mem.read? (s.pc : Int) = some w →
    decodeHead w = .ok h →
    (s.mem.size - 1 - s.pc < h.op.arity →
      Faults (step s) s (some w) (.missingWords h.op.arity (s.mem.size - 1 - s.pc))) ∧
    (h.op.arity ≤ s.mem.size - 1 - s.pc →
      ∃ t, step s = .next t ∧ ∀ r, t.fault = some r → r.kind ≠ .arityFault) ∧
    (h.op = .halt → ∃ t, step s = .next t ∧ t.status = .halted ∧ t.fault = none)

/-! ## Results and completion of the instructions -/

/-- R52, R85, R87, R100, R101, decision D2: ADD and MUL with readable sources, a valid destination and an exact result
that is a word store it, advance by 4 and change nothing else. The sources are read before the write, also where the
destination is a source or the instruction itself. -/
def Obligations.AddAndMulStoreTheExactResult : Prop :=
  ∀ (s : State) (a b d : Slot) (x y : Word), ReadsAs s a x → ReadsAs s b y → s.mem.Valid d.raw →
    (InWord s.cfg.wordBits (x + y) → ∃ t, exec (.add a b d) s = .next t ∧ StoresWord s t d.raw (x + y) ∧
      t.pc = s.pc + 4 ∧ t.inq = s.inq ∧ t.outlog = s.outlog ∧ SameControl s t) ∧
    (InWord s.cfg.wordBits (x * y) → ∃ t, exec (.mul a b d) s = .next t ∧ StoresWord s t d.raw (x * y) ∧
      t.pc = s.pc + 4 ∧ t.inq = s.inq ∧ t.outlog = s.outlog ∧ SameControl s t)

/-- R88, R155, decision D2 (code 5: R150, decisions D2 and D9): when the exact sum or product is not a word, ADD or MUL
raises ArithmeticOverflowFault, code 5, with the operation and the two operand values, and nothing is written. -/
def Obligations.OverflowFaults : Prop :=
  ∀ (s : State) (a b d : Slot) (x y : Word), ReadsAs s a x → ReadsAs s b y → s.mem.Valid d.raw →
    (¬InWord s.cfg.wordBits (x + y) →
      Faults (exec (.add a b d) s) s (some (Instr.add a b d).word) (.overflow .add x y)) ∧
    (¬InWord s.cfg.wordBits (x * y) →
      Faults (exec (.mul a b d) s) s (some (Instr.mul a b d).word) (.overflow .mul x y)) ∧
    (Cause.overflow .add x y).kind = .arithmeticOverflowFault ∧ FaultKind.arithmeticOverflowFault.code = 5

/-- R85, R87, R130, R131: LT and EQ with readable sources and a valid destination store 1 where the comparison of the
signed integers holds and 0 where it does not, advance by 4 and change nothing else. -/
def Obligations.CompareStoresOneOrZero : Prop :=
  ∀ (s : State) (a b d : Slot) (x y : Word), ReadsAs s a x → ReadsAs s b y → s.mem.Valid d.raw →
    (∃ t, exec (.lt a b d) s = .next t ∧ (x < y → StoresWord s t d.raw 1) ∧ (y ≤ x → StoresWord s t d.raw 0) ∧
      t.pc = s.pc + 4 ∧ t.inq = s.inq ∧ t.outlog = s.outlog ∧ SameControl s t) ∧
    (∃ t, exec (.eq a b d) s = .next t ∧ (x = y → StoresWord s t d.raw 1) ∧ (x ≠ y → StoresWord s t d.raw 0) ∧
      t.pc = s.pc + 4 ∧ t.inq = s.inq ∧ t.outlog = s.outlog ∧ SameControl s t)

/-- R68, R70, R71, R157, decision D8: ADD, MUL, LT and EQ raise AddressFault for the first slot in order that is out of
bounds: Read of slot 1, then Read of slot 2, then Write of slot 3, which comes before an overflow. -/
def Obligations.ThreeSlotAddressFaults : Prop :=
  ∀ (s : State) (a b d : Slot), ∀ mk ∈ [Instr.add, Instr.mul, Instr.lt, Instr.eq],
    (ReadsOutside s a →
      Faults (exec (mk a b d) s) s (some (mk a b d).word) (.badAddress .read (some 1) a.raw)) ∧
    (∀ x, ReadsAs s a x → ReadsOutside s b →
      Faults (exec (mk a b d) s) s (some (mk a b d).word) (.badAddress .read (some 2) b.raw)) ∧
    (∀ x y, ReadsAs s a x → ReadsAs s b y → ¬s.mem.Valid d.raw →
      Faults (exec (mk a b d) s) s (some (mk a b d).word) (.badAddress .write (some 3) d.raw))

/-- R85, R110: IN with a valid destination and an input waiting stores the front input unchanged, removes it, advances
by 2 and changes nothing else. -/
def Obligations.InputStoresTheFrontOfTheQueue : Prop :=
  ∀ (s : State) (d : Slot) (m2 m3 : Mode) (x : Word) (rest : List Word), s.mem.Valid d.raw → s.inq = x :: rest →
    ∃ t, exec (.inp d m2 m3) s = .next t ∧ StoresWord s t d.raw x ∧ t.inq = rest ∧ t.pc = s.pc + 2 ∧
      t.outlog = s.outlog ∧ SameControl s t

/-- R154: IN raises InputExhaustedFault with an empty cause when the queue is empty at stage E, that is when the
destination check has passed (R157, decision D8). Its code is 4 by R150, decision D9. -/
def Obligations.InputExhaustedFaults : Prop :=
  ∀ (s : State) (d : Slot) (m2 m3 : Mode), s.mem.Valid d.raw → s.inq = [] →
    Faults (exec (.inp d m2 m3) s) s (some (Instr.inp d m2 m3).word) .inputExhausted ∧
      Cause.inputExhausted.kind = .inputExhaustedFault ∧ FaultKind.inputExhaustedFault.code = 4

/-- R70, R157 (the order is the spec's decision D8): IN with a destination out of bounds raises AddressFault with access
Write, slot 1, whatever the queue holds. -/
def Obligations.InputDestinationFaults : Prop :=
  ∀ (s : State) (d : Slot) (m2 m3 : Mode), ¬s.mem.Valid d.raw →
    Faults (exec (.inp d m2 m3) s) s (some (Instr.inp d m2 m3).word) (.badAddress .write (some 1) d.raw)

/-- R68, R85, R111: OUT with a readable source appends its value, advances by 2 and changes nothing else; a source out
of bounds raises AddressFault with access Read, slot 1. -/
def Obligations.OutputAppendsTheSource : Prop :=
  ∀ (s : State) (a : Slot) (m2 m3 : Mode),
    (∀ x, ReadsAs s a x → ∃ t, exec (.out a m2 m3) s = .next t ∧ t.outlog = s.outlog ++ [x] ∧ t.outreg = some x ∧
      t.pc = s.pc + 2 ∧ t.mem = s.mem ∧ t.inq = s.inq ∧ SameControl s t) ∧
    (ReadsOutside s a →
      Faults (exec (.out a m2 m3) s) s (some (Instr.out a m2 m3).word) (.badAddress .read (some 1) a.raw))

/-- R85, R120, R121, decision D6: with readable slots, JT jumps exactly when the condition is not 0 and JF exactly when
it is 0, to the target itself, which must be valid then (AddressFault with access Jump) and is not checked otherwise;
the fall-through advances by 3; nothing but pc changes. -/
def Obligations.JumpsFollowTheCondition : Prop :=
  ∀ (s : State) (c d : Slot) (m3 : Mode) (x y : Word), ReadsAs s c x → ReadsAs s d y →
    (x ≠ 0 → s.mem.Valid y → exec (.jt c d m3) s = .next { s with pc := y.toNat }) ∧
    (x ≠ 0 → ¬s.mem.Valid y →
      Faults (exec (.jt c d m3) s) s (some (Instr.jt c d m3).word) (.badAddress .jump none y)) ∧
    (x = 0 → exec (.jt c d m3) s = .next { s with pc := s.pc + 3 }) ∧
    (x = 0 → s.mem.Valid y → exec (.jf c d m3) s = .next { s with pc := y.toNat }) ∧
    (x = 0 → ¬s.mem.Valid y →
      Faults (exec (.jf c d m3) s) s (some (Instr.jf c d m3).word) (.badAddress .jump none y)) ∧
    (x ≠ 0 → exec (.jf c d m3) s = .next { s with pc := s.pc + 3 })

/-- R68, R71, decisions D6 and D8: JT and JF resolve both slots, in order, before the condition is tested: a Positional
slot out of bounds raises AddressFault with access Read whether or not the jump would be taken. -/
def Obligations.JumpSlotAddressFaults : Prop :=
  ∀ (s : State) (c d : Slot) (m3 : Mode), ∀ mk ∈ [Instr.jt, Instr.jf],
    (ReadsOutside s c →
      Faults (exec (mk c d m3) s) s (some (mk c d m3).word) (.badAddress .read (some 1) c.raw)) ∧
    (∀ x, ReadsAs s c x → ReadsOutside s d →
      Faults (exec (mk c d m3) s) s (some (mk c d m3).word) (.badAddress .read (some 2) d.raw))

/-- R140, decisions D4 and D10: HALT, whatever its mode digits, sets the status to Halted and changes nothing else, pc
included; and no step follows (R141). -/
def Obligations.HaltStopsTheRun : Prop :=
  ∀ (s : State) (m1 m2 m3 : Mode), ∃ t, exec (.halt m1 m2 m3) s = .next t ∧ t = { s with status := .halted } ∧
    ∀ u, step t ≠ .next u

/-- R70, R73, decision D4: a mode digit of a write-target slot or beyond the arity has no effect on an instruction that
does not fault. -/
def Obligations.IdleModeDigitsHaveNoEffect : Prop :=
  ∀ (s t : State) (m1 m2 m3 n1 n2 n3 : Mode) (r : Word) (a b : Slot), t.status ≠ .faulted →
    (∀ mk ∈ [Instr.add, Instr.mul, Instr.lt, Instr.eq],
      exec (mk a b ⟨m3, r⟩) s = .next t → exec (mk a b ⟨n3, r⟩) s = .next t) ∧
    (exec (.inp ⟨m1, r⟩ m2 m3) s = .next t → exec (.inp ⟨n1, r⟩ n2 n3) s = .next t) ∧
    (exec (.out a m2 m3) s = .next t → exec (.out a n2 n3) s = .next t) ∧
    (∀ mk ∈ [Instr.jt, Instr.jf], exec (mk a b m3) s = .next t → exec (mk a b n3) s = .next t) ∧
    (exec (.halt m1 m2 m3) s = .next t → exec (.halt n1 n2 n3) s = .next t)

/-! ## Frames -/

/-- Frame of ADD, MUL, LT and EQ (R43, R46, R84): in every next state, a fault's among them, the queue, the log, the
width and N are unchanged, every address reads as before except the one the resolver gives the destination slot, and the
status and the record are unchanged unless the instruction faulted, which changes no word and not pc. -/
def Obligations.FrameOfStoringInstructions : Prop :=
  ∀ (s t : State) (a b d : Slot), ∀ mk ∈ [Instr.add, Instr.mul, Instr.lt, Instr.eq],
    exec (mk a b d) s = .next t →
      t.inq = s.inq ∧ t.outlog = s.outlog ∧ t.cfg = s.cfg ∧ t.mem.size = s.mem.size ∧
      (∀ x : Int, (∀ adr, resolveDst s 3 d = .ok adr → x ≠ adr) → t.mem.read? x = s.mem.read? x) ∧
      ((t.status = s.status ∧ t.fault = s.fault ∧ t.pc = s.pc + 4) ∨
        (t.status = .faulted ∧ t.mem = s.mem ∧ t.pc = s.pc))

/-- Frame of IN (R43, R56, R84), as for the storing instructions; the queue changes only by its front element. -/
def Obligations.FrameOfInput : Prop :=
  ∀ (s t : State) (d : Slot) (m2 m3 : Mode), exec (.inp d m2 m3) s = .next t →
    t.outlog = s.outlog ∧ t.cfg = s.cfg ∧ t.mem.size = s.mem.size ∧
    (∀ x : Int, (∀ adr, resolveDst s 1 d = .ok adr → x ≠ adr) → t.mem.read? x = s.mem.read? x) ∧
    ((t.status = s.status ∧ t.fault = s.fault ∧ t.pc = s.pc + 2 ∧ t.inq = s.inq.tail ∧ s.inq ≠ []) ∨
      (t.status = .faulted ∧ t.mem = s.mem ∧ t.pc = s.pc ∧ t.inq = s.inq))

/-- Frame of OUT, JT, JF and HALT (R46, R84): every word of memory, N, the width and the queue are unchanged in every
next state; the log changes only by OUT, and the record only by a fault. -/
def Obligations.FrameOfInstructionsThatStoreNothing : Prop :=
  ∀ (s t : State) (a b : Slot) (m1 m2 m3 : Mode),
    ∀ i ∈ [Instr.out a m2 m3, Instr.jt a b m3, Instr.jf a b m3, Instr.halt m1 m2 m3],
      exec i s = .next t →
        t.mem = s.mem ∧ (∀ x : Int, t.mem.read? x = s.mem.read? x) ∧ t.inq = s.inq ∧ t.cfg = s.cfg ∧
        (i.op ≠ .out → t.outlog = s.outlog) ∧
        (i.op = .out → ∃ added, t.outlog = s.outlog ++ added ∧ added.length ≤ 1) ∧
        (t.fault = s.fault ∨ (t.status = .faulted ∧ t.pc = s.pc ∧ t.outlog = s.outlog)) ∧
        (i.op = .halt → t.pc = s.pc ∧ t.status = .halted ∧ t.fault = s.fault)

/-! ## Assembly -/

/-- R76, R77, decision D19; for digits beyond the arity, which R77 does not name, the model's choice of log entry 11: a
statement that assembles decodes to an instruction of its opcode whose encoding is its words, with no word left over,
and the disassembler prints that statement. What the disassembler prints for an instruction assembles to its words
exactly when no idle mode digit of it is 1, and a listing then holds what is printed; with an idle digit 1 it holds the
words as DATA. Either way what a listing holds assembles to the words. -/
def Obligations.AssemblyMatchesTheEncoding : Prop :=
  (∀ (op : Op) (os : List Operand) (ws : List Word), assembleStmt (.instr op os) = .ok ws →
    ∃ i, decode ws = .ok (i, []) ∧ i.op = op ∧ encode i = ws ∧ disassemble i = .instr op os) ∧
  (∀ i : Instr, (assembleStmt (disassemble i) = .ok (encode i) ↔ ∀ m ∈ idleDigits i, m = .positional) ∧
    ((∀ m ∈ idleDigits i, m = .positional) → listingStmt i = disassemble i) ∧
    (Mode.immediate ∈ idleDigits i → listingStmt i = .data (encode i)) ∧
    assembleStmt (listingStmt i) = .ok (encode i))
end

