-- ==== Sys2Proof/Laws/Decode.lean ====
section
/-! SUPPORT. The instruction word of a head decodes to that head (spec 30_encoding.md R61, R76). -/

namespace Sys2Proof

/-- R76 inverts R61: each of the 72 legal words (R74) decodes to the opcode and digits it was written from. -/
theorem decodeHead_word (h : Head) : decodeHead h.word = .ok h := by
  obtain ⟨op, m1, m2, m3⟩ := h
  cases op <;> cases m1 <;> cases m2 <;> cases m3 <;> decide

end Sys2Proof
end

