-- ==== Sys2Proof/Laws/Memory.lean ====
section
/-! SUPPORT. The laws of memory: read after write (spec 20_memory.md R43, R51), a write leaves every other address and
N alone, and every operation keeps the canonical form and the range of the words. -/

namespace Sys2Proof.Machine

/-! ### Cells -/

theorem cellAt_putCell (l : List Cell) (a b : Nat) (v : Word) :
    cellAt (putCell l a v) b = if b = a then v else cellAt l b := by
  induction l with
  | nil => simp only [putCell, cellAt]
  | cons c rest ih =>
    obtain ⟨d, u⟩ := c
    simp only [putCell]
    split
    · simp only [cellAt]
    · split
      · subst_vars
        simp only [cellAt]
        split <;> rfl
      · simp only [cellAt, ih]
        split <;> split <;> first | rfl | omega

theorem cellAt_filter_ne (l : List Cell) (a b : Nat) :
    cellAt (l.filter fun c => decide (c.1 ≠ a)) b = if b = a then Memory.unlisted else cellAt l b := by
  induction l with
  | nil => simp [cellAt]
  | cons c rest ih =>
    obtain ⟨d, u⟩ := c
    by_cases hd : d = a
    · subst hd
      simp only [ne_eq, not_true_eq_false, decide_false, Bool.false_eq_true, not_false_eq_true,
        List.filter_cons_of_neg, cellAt] at ih ⊢
      rw [ih]
      split <;> rfl
    · rw [List.filter_cons_of_pos (by simpa using hd)]
      simp only [cellAt, ih]
      split <;> split <;> first | rfl | omega

/-- Read after write, cell by cell: no premise on the list. -/
theorem cellAt_setCell (l : List Cell) (a b : Nat) (v : Word) :
    cellAt (setCell l a v) b = if b = a then v else cellAt l b := by
  unfold setCell
  split
  · rename_i h
    rw [cellAt_filter_ne, h]
  · exact cellAt_putCell l a b v

theorem cellsRise_cons (c : Cell) (l : List Cell) :
    cellsRise (c :: l) = true ↔ (∀ d ∈ l, c.1 < d.1) ∧ cellsRise l = true := by
  induction l generalizing c with
  | nil => simp [cellsRise]
  | cons d rest ih =>
    obtain ⟨a, v⟩ := c
    obtain ⟨b, u⟩ := d
    simp only [cellsRise, Bool.and_eq_true, decide_eq_true_eq, List.mem_cons, forall_eq_or_imp]
    constructor
    · rintro ⟨h, hr⟩
      exact ⟨⟨h, fun e he => Nat.lt_trans h (((ih (b, u)).mp hr).1 e he)⟩, hr⟩
    · rintro ⟨⟨h, _⟩, hr⟩
      exact ⟨h, hr⟩

theorem mem_putCell {l : List Cell} {a : Nat} {v : Word} {c : Cell} (h : c ∈ putCell l a v) :
    c = (a, v) ∨ c ∈ l := by
  induction l with
  | nil => simpa [putCell] using h
  | cons d rest ih =>
    obtain ⟨b, u⟩ := d
    simp only [putCell] at h
    split at h
    · simpa using h
    · split at h <;> simp only [List.mem_cons] at h ⊢
      · tauto
      · rcases h with h | h
        · tauto
        · have := ih h
          tauto

theorem mem_setCell {l : List Cell} {a : Nat} {v : Word} {c : Cell} (h : c ∈ setCell l a v) :
    (c = (a, v) ∧ v ≠ Memory.unlisted) ∨ c ∈ l := by
  unfold setCell at h
  split at h
  · exact .inr (List.mem_filter.mp h).1
  · rename_i hv
    rcases mem_putCell h with h | h
    · exact .inl ⟨h, hv⟩
    · exact .inr h

theorem cellsRise_putCell {l : List Cell} (a : Nat) (v : Word) (h : cellsRise l = true) :
    cellsRise (putCell l a v) = true := by
  induction l with
  | nil => rfl
  | cons d rest ih =>
    obtain ⟨b, u⟩ := d
    obtain ⟨hlt, hr⟩ := (cellsRise_cons _ _).mp h
    simp only [putCell]
    split
    · rename_i hab
      refine (cellsRise_cons _ _).mpr ⟨fun e he => ?_, h⟩
      rcases List.mem_cons.mp he with rfl | he
      · exact hab
      · exact Nat.lt_trans hab (hlt e he)
    · split
      · rename_i hab
        subst hab
        exact (cellsRise_cons _ _).mpr ⟨hlt, hr⟩
      · refine (cellsRise_cons _ _).mpr ⟨fun e he => ?_, ih hr⟩
        rcases mem_putCell he with rfl | he
        · show b < a
          omega
        · exact hlt e he

theorem cellsRise_filter {l : List Cell} (p : Cell → Bool) (h : cellsRise l = true) :
    cellsRise (l.filter p) = true := by
  induction l with
  | nil => rfl
  | cons d rest ih =>
    obtain ⟨hlt, hr⟩ := (cellsRise_cons _ _).mp h
    simp only [List.filter_cons]
    split
    · exact (cellsRise_cons _ _).mpr ⟨fun e he => hlt e (List.mem_filter.mp he).1, ih hr⟩
    · exact ih hr

theorem cellsRise_setCell {l : List Cell} (a : Nat) (v : Word) (h : cellsRise l = true) :
    cellsRise (setCell l a v) = true := by
  unfold setCell
  split
  · exact cellsRise_filter _ h
  · exact cellsRise_putCell a v h

/-! ### Reading and writing -/

theorem Memory.wf_iff (m : Memory) :
    m.wf = true ↔ cellsRise m.cells = true ∧ ∀ c ∈ m.cells, c.1 < m.size ∧ c.2 ≠ Memory.unlisted := by
  simp [Memory.wf]

theorem Memory.read?_eq_some_iff (m : Memory) (a : Int) (v : Word) :
    m.read? a = some v ↔ m.Valid a ∧ cellAt m.cells a.toNat = v := by
  unfold Memory.read?
  by_cases h : m.Valid a
  · rw [if_pos h]
    exact ⟨fun hv => ⟨h, Option.some.inj hv⟩, fun hv => congrArg some hv.2⟩
  · rw [if_neg h]
    exact ⟨fun hv => (nomatch hv), fun hv => absurd hv.1 h⟩

theorem Memory.read?_eq_none_iff (m : Memory) (a : Int) : m.read? a = none ↔ ¬m.Valid a := by
  unfold Memory.read?
  split <;> simp_all

theorem Memory.read?_of_valid {m : Memory} {a : Int} (h : m.Valid a) : m.read? a = some (cellAt m.cells a.toNat) :=
  (Memory.read?_eq_some_iff m a _).mpr ⟨h, rfl⟩

theorem Memory.read?_of_not_valid {m : Memory} {a : Int} (h : ¬m.Valid a) : m.read? a = none :=
  (Memory.read?_eq_none_iff m a).mpr h

@[simp] theorem Memory.write_size (m : Memory) (a : Int) (v : Word) : (m.write a v).size = m.size := by
  unfold Memory.write
  split <;> rfl

/-- A read after a write: the word written at a valid address, every other address as before (R43, R51). -/
theorem Memory.read?_write (m : Memory) (a b : Int) (v : Word) :
    (m.write a v).read? b = if b = a ∧ m.Valid a then some v else m.read? b := by
  unfold Memory.write
  by_cases ha : m.Valid a
  · rw [if_pos ha]
    by_cases hb : m.Valid b
    · have hc : b.toNat = a.toNat ↔ b = a := by
        obtain ⟨h1, h2⟩ := ha
        obtain ⟨h3, h4⟩ := hb
        omega
      simp only [Memory.read?, Memory.Valid] at *
      rw [if_pos hb, if_pos hb, cellAt_setCell]
      simp only [hc, ha, and_true]
      split <;> rfl
    · have hne : b ≠ a := fun h => hb (h ▸ ha)
      simp only [Memory.read?, Memory.Valid] at *
      rw [if_neg hb, if_neg hb, if_neg (fun h => hne h.1)]
  · rw [if_neg ha, if_neg (fun h => ha h.2)]

theorem Memory.read?_write_self {m : Memory} {a : Int} (v : Word) (h : m.Valid a) :
    (m.write a v).read? a = some v := by
  rw [Memory.read?_write, if_pos ⟨rfl, h⟩]

theorem Memory.read?_write_ne (m : Memory) {a b : Int} (v : Word) (h : b ≠ a) :
    (m.write a v).read? b = m.read? b := by
  rw [Memory.read?_write, if_neg (fun hh => h hh.1)]

theorem Memory.wf_write {m : Memory} (a : Int) (v : Word) (h : m.wf = true) : (m.write a v).wf = true := by
  obtain ⟨hr, hc⟩ := (Memory.wf_iff m).mp h
  unfold Memory.write
  split
  · rename_i ha
    refine (Memory.wf_iff _).mpr ⟨cellsRise_setCell _ _ hr, fun c hmem => ?_⟩
    rcases mem_setCell hmem with ⟨rfl, hv⟩ | hmem
    · refine ⟨?_, hv⟩
      obtain ⟨h1, h2⟩ := ha
      show a.toNat < m.size
      omega
    · exact hc c hmem
  · exact h

theorem Memory.inRange_write {m : Memory} {W : Nat} (a : Int) {v : Word} (h : m.InRange W) (hv : InWord W v) :
    (m.write a v).InRange W := by
  unfold Memory.write
  split
  · intro c hmem
    rcases mem_setCell hmem with ⟨rfl, _⟩ | hmem
    · exact hv
    · exact h c hmem
  · exact h

theorem wordLimit_pos (W : Nat) : 1 ≤ wordLimit W := by
  have : 0 < 2 ^ (W - 1) := Nat.two_pow_pos _
  unfold wordLimit
  omega

theorem inWord_unlisted (W : Nat) : InWord W Memory.unlisted := by
  have := wordLimit_pos W
  constructor <;> simp only [Memory.unlisted] <;> omega

theorem cellAt_inWord {W : Nat} {l : List Cell} (h : ∀ c ∈ l, InWord W c.2) (a : Nat) : InWord W (cellAt l a) := by
  induction l with
  | nil => exact inWord_unlisted W
  | cons d rest ih =>
    obtain ⟨b, u⟩ := d
    simp only [cellAt]
    split
    · exact h (b, u) (by simp)
    · exact ih fun c hc => h c (by simp [hc])

/-- Every read of a memory that holds words gives a word. -/
theorem Memory.read?_inWord {m : Memory} {W : Nat} {a : Int} {v : Word} (h : m.InRange W) (hr : m.read? a = some v) :
    InWord W v := by
  obtain ⟨_, rfl⟩ := (Memory.read?_eq_some_iff m a v).mp hr
  exact cellAt_inWord h _

/-! ### Loading and placing -/

theorem mem_cellsOf {ws : List Word} {base : Nat} {c : Cell} (h : c ∈ cellsOf base ws) :
    base ≤ c.1 ∧ c.1 < base + ws.length ∧ c.2 ≠ Memory.unlisted ∧ c.2 ∈ ws := by
  induction ws generalizing base with
  | nil => simp [cellsOf] at h
  | cons w ws ih =>
    simp only [cellsOf] at h
    split at h
    · obtain ⟨h1, h2, h3, h4⟩ := ih h
      refine ⟨by omega, ?_, h3, by simp [h4]⟩
      simp only [List.length_cons]
      omega
    · rcases List.mem_cons.mp h with rfl | h
      · refine ⟨Nat.le_refl _, ?_, by assumption, by simp⟩
        simp only [List.length_cons]
        omega
      · obtain ⟨h1, h2, h3, h4⟩ := ih h
        refine ⟨by omega, ?_, h3, by simp [h4]⟩
        simp only [List.length_cons]
        omega

@[simp] theorem Memory.ofWords_size (ws : List Word) : (Memory.ofWords ws).size = ws.length := rfl

/-- What the loaded cells give to an address: the word placed there, or the unlisted value outside them. -/
theorem cellAt_cellsOf (ws : List Word) (base a : Nat) :
    cellAt (cellsOf base ws) a = if base ≤ a then ws.getD (a - base) Memory.unlisted else Memory.unlisted := by
  induction ws generalizing base with
  | nil => simp [cellsOf, cellAt]
  | cons w ws ih =>
    have later : base + 1 ≤ a → (w :: ws).getD (a - base) Memory.unlisted = ws.getD (a - (base + 1)) Memory.unlisted := by
      intro h
      have : a - base = (a - (base + 1)) + 1 := by omega
      rw [this, List.getD_cons_succ]
    have here : a = base → (w :: ws).getD (a - base) Memory.unlisted = w := by
      rintro rfl
      rw [Nat.sub_self, List.getD_cons_zero]
    simp only [cellsOf]
    split
    · rename_i hw
      rw [ih]
      by_cases h : base + 1 ≤ a
      · rw [if_pos h, if_pos (by omega), later h]
      · rw [if_neg h]
        split
        · rw [here (by omega), hw]
        · rfl
    · simp only [cellAt]
      rw [ih]
      by_cases h : a = base
      · rw [if_pos h, if_pos (by omega), here h]
      · rw [if_neg h]
        by_cases h1 : base + 1 ≤ a
        · rw [if_pos h1, if_pos (by omega), later h1]
        · rw [if_neg h1, if_neg (by omega)]

theorem cellsRise_cellsOf (base : Nat) (ws : List Word) : cellsRise (cellsOf base ws) = true := by
  induction ws generalizing base with
  | nil => rfl
  | cons w ws ih =>
    simp only [cellsOf]
    split
    · exact ih _
    · refine (cellsRise_cons _ _).mpr ⟨fun c hc => ?_, ih _⟩
      have := (mem_cellsOf hc).1
      show base < c.1
      omega

theorem Memory.wf_ofWords (ws : List Word) : (Memory.ofWords ws).wf = true := by
  refine (Memory.wf_iff _).mpr ⟨cellsRise_cellsOf 0 ws, fun c hc => ?_⟩
  obtain ⟨_, h2, h3, _⟩ := mem_cellsOf hc
  exact ⟨by simpa [Memory.ofWords] using h2, h3⟩

theorem Memory.inRange_ofWords {W : Nat} {ws : List Word} (h : ∀ w ∈ ws, InWord W w) :
    (Memory.ofWords ws).InRange W := fun c hc => h c.2 (mem_cellsOf hc).2.2.2

theorem Memory.wf_atLeast {m : Memory} (n : Nat) (h : m.wf = true) : (m.atLeast n).wf = true := by
  obtain ⟨hr, hc⟩ := (Memory.wf_iff m).mp h
  refine (Memory.wf_iff _).mpr ⟨hr, fun c hmem => ⟨?_, (hc c hmem).2⟩⟩
  exact Nat.lt_of_lt_of_le (hc c hmem).1 (Nat.le_max_left _ _)

theorem Memory.wf_place {m : Memory} (a : Nat) (ws : List Word) (h : m.wf = true) : (m.place a ws).wf = true := by
  induction ws generalizing m a with
  | nil => exact h
  | cons w ws ih => exact ih _ (Memory.wf_write _ _ h)

theorem reset_memory_wf : State.reset.mem.wf = true := rfl

end Sys2Proof.Machine
end

