-- ==== Sys2Proof/Laws/State.lean ====
section
/-! SUPPORT. One lemma per field per update of State, so that no proof unfolds a record update. -/

namespace Sys2Proof.Machine

/-! ### `State.wr` -/

@[simp] theorem State.wr_cfg (s : State) (a : Int) (v : Word) : (s.wr a v).cfg = s.cfg := rfl
@[simp] theorem State.wr_mem (s : State) (a : Int) (v : Word) : (s.wr a v).mem = s.mem.write a v := rfl
@[simp] theorem State.wr_pc (s : State) (a : Int) (v : Word) : (s.wr a v).pc = s.pc := rfl
@[simp] theorem State.wr_status (s : State) (a : Int) (v : Word) : (s.wr a v).status = s.status := rfl
@[simp] theorem State.wr_fault (s : State) (a : Int) (v : Word) : (s.wr a v).fault = s.fault := rfl
@[simp] theorem State.wr_inq (s : State) (a : Int) (v : Word) : (s.wr a v).inq = s.inq := rfl
@[simp] theorem State.wr_outlog (s : State) (a : Int) (v : Word) : (s.wr a v).outlog = s.outlog := rfl

/-! ### `State.setPc` -/

@[simp] theorem State.setPc_cfg (s : State) (t : Nat) : (s.setPc t).cfg = s.cfg := rfl
@[simp] theorem State.setPc_mem (s : State) (t : Nat) : (s.setPc t).mem = s.mem := rfl
@[simp] theorem State.setPc_pc (s : State) (t : Nat) : (s.setPc t).pc = t := rfl
@[simp] theorem State.setPc_status (s : State) (t : Nat) : (s.setPc t).status = s.status := rfl
@[simp] theorem State.setPc_fault (s : State) (t : Nat) : (s.setPc t).fault = s.fault := rfl
@[simp] theorem State.setPc_inq (s : State) (t : Nat) : (s.setPc t).inq = s.inq := rfl
@[simp] theorem State.setPc_outlog (s : State) (t : Nat) : (s.setPc t).outlog = s.outlog := rfl

/-! ### `State.advance` -/

@[simp] theorem State.advance_cfg (s : State) (n : Nat) : (s.advance n).cfg = s.cfg := rfl
@[simp] theorem State.advance_mem (s : State) (n : Nat) : (s.advance n).mem = s.mem := rfl
@[simp] theorem State.advance_pc (s : State) (n : Nat) : (s.advance n).pc = s.pc + 1 + n := rfl
@[simp] theorem State.advance_status (s : State) (n : Nat) : (s.advance n).status = s.status := rfl
@[simp] theorem State.advance_fault (s : State) (n : Nat) : (s.advance n).fault = s.fault := rfl
@[simp] theorem State.advance_inq (s : State) (n : Nat) : (s.advance n).inq = s.inq := rfl
@[simp] theorem State.advance_outlog (s : State) (n : Nat) : (s.advance n).outlog = s.outlog := rfl

/-! ### `State.halt` -/

@[simp] theorem State.halt_cfg (s : State) : s.halt.cfg = s.cfg := rfl
@[simp] theorem State.halt_mem (s : State) : s.halt.mem = s.mem := rfl
@[simp] theorem State.halt_pc (s : State) : s.halt.pc = s.pc := rfl
@[simp] theorem State.halt_status (s : State) : s.halt.status = .halted := rfl
@[simp] theorem State.halt_fault (s : State) : s.halt.fault = s.fault := rfl
@[simp] theorem State.halt_inq (s : State) : s.halt.inq = s.inq := rfl
@[simp] theorem State.halt_outlog (s : State) : s.halt.outlog = s.outlog := rfl

/-! ### `State.inPop` -/

@[simp] theorem State.inPop_cfg (s : State) : s.inPop.cfg = s.cfg := rfl
@[simp] theorem State.inPop_mem (s : State) : s.inPop.mem = s.mem := rfl
@[simp] theorem State.inPop_pc (s : State) : s.inPop.pc = s.pc := rfl
@[simp] theorem State.inPop_status (s : State) : s.inPop.status = s.status := rfl
@[simp] theorem State.inPop_fault (s : State) : s.inPop.fault = s.fault := rfl
@[simp] theorem State.inPop_inq (s : State) : s.inPop.inq = s.inq.tail := rfl
@[simp] theorem State.inPop_outlog (s : State) : s.inPop.outlog = s.outlog := rfl

/-! ### `State.outPush` -/

@[simp] theorem State.outPush_cfg (s : State) (v : Word) : (s.outPush v).cfg = s.cfg := rfl
@[simp] theorem State.outPush_mem (s : State) (v : Word) : (s.outPush v).mem = s.mem := rfl
@[simp] theorem State.outPush_pc (s : State) (v : Word) : (s.outPush v).pc = s.pc := rfl
@[simp] theorem State.outPush_status (s : State) (v : Word) : (s.outPush v).status = s.status := rfl
@[simp] theorem State.outPush_fault (s : State) (v : Word) : (s.outPush v).fault = s.fault := rfl
@[simp] theorem State.outPush_inq (s : State) (v : Word) : (s.outPush v).inq = s.inq := rfl
@[simp] theorem State.outPush_outlog (s : State) (v : Word) : (s.outPush v).outlog = s.outlog ++ [v] := rfl

/-! ### `State.raise` -/

@[simp] theorem State.raise_cfg (s : State) (w : Option Word) (c : Cause) : (s.raise w c).cfg = s.cfg := rfl
@[simp] theorem State.raise_mem (s : State) (w : Option Word) (c : Cause) : (s.raise w c).mem = s.mem := rfl
@[simp] theorem State.raise_pc (s : State) (w : Option Word) (c : Cause) : (s.raise w c).pc = s.pc := rfl
@[simp] theorem State.raise_status (s : State) (w : Option Word) (c : Cause) : (s.raise w c).status = .faulted := rfl
@[simp] theorem State.raise_fault (s : State) (w : Option Word) (c : Cause) : (s.raise w c).fault = some (faultRecord s.pc w c) := rfl
@[simp] theorem State.raise_inq (s : State) (w : Option Word) (c : Cause) : (s.raise w c).inq = s.inq := rfl
@[simp] theorem State.raise_outlog (s : State) (w : Option Word) (c : Cause) : (s.raise w c).outlog = s.outlog := rfl

/-! ### The fault record -/

@[simp] theorem faultRecord_kind (pc : Nat) (w : Option Word) (c : Cause) : (faultRecord pc w c).kind = c.kind := rfl
@[simp] theorem faultRecord_code (pc : Nat) (w : Option Word) (c : Cause) : (faultRecord pc w c).code = c.kind.code := rfl
@[simp] theorem faultRecord_pc (pc : Nat) (w : Option Word) (c : Cause) : (faultRecord pc w c).pc = pc := rfl
@[simp] theorem faultRecord_word (pc : Nat) (w : Option Word) (c : Cause) : (faultRecord pc w c).word = w := rfl
@[simp] theorem faultRecord_opcode (pc : Nat) (w : Option Word) (c : Cause) :
    (faultRecord pc w c).opcode = opcodeOf w := rfl
@[simp] theorem faultRecord_cause (pc : Nat) (w : Option Word) (c : Cause) : (faultRecord pc w c).cause = c := rfl

/-! ### The faults of reading an instruction (R82) -/

@[simp] theorem raiseReject_noWord (s : State) :
    s.raiseReject .noWord = s.raise none (.badAddress .fetch none (s.pc : Int)) := rfl
@[simp] theorem raiseReject_illegal (s : State) (w : Word) (why : HeadReject) :
    s.raiseReject (.illegal w why) = s.raise (some w) (headCause why) := rfl
@[simp] theorem raiseReject_truncated (s : State) (w : Word) (arity available : Nat) :
    s.raiseReject (.truncated w arity available) = s.raise (some w) (.missingWords arity available) := rfl

end Sys2Proof.Machine
end

