-- ==== Sys2Proof/Laws/Exec.lean ====
section
/-! SUPPORT. What each shared operation can do, said once: the resolver (spec 30_encoding.md R67 to R71), taking a fault
(40_engine_cycle.md R83), the two shapes of stages R, E and C, and the step. -/

namespace Sys2Proof.Machine

/-! ### The resolver -/

/-- A source slot either has a value or is a Positional read outside memory (R68, R69). -/
theorem resolveSrc_cases (s : State) (k : Nat) (p : Slot) :
    (∃ v, ReadsAs s p v ∧ resolveSrc s k p = .ok v) ∨
      (ReadsOutside s p ∧ resolveSrc s k p = .error (.badAddress .read (some k) p.raw)) := by
  obtain ⟨m, r⟩ := p
  cases m with
  | immediate => exact .inl ⟨r, rfl, rfl⟩
  | positional =>
    simp only [ReadsAs, ReadsOutside, resolveSrc, State.rdOperand]
    cases h : s.mem.read? r with
    | some v => exact .inl ⟨v, rfl, rfl⟩
    | none => exact .inr ⟨⟨trivial, (Memory.read?_eq_none_iff _ _).mp h⟩, rfl⟩

theorem resolveSrc_of_reads {s : State} {p : Slot} {v : Word} (k : Nat) (h : ReadsAs s p v) :
    resolveSrc s k p = .ok v := by
  obtain ⟨m, r⟩ := p
  cases m with
  | immediate => exact congrArg Except.ok (Eq.symm h)
  | positional =>
    simp only [ReadsAs] at h
    simp only [resolveSrc, State.rdOperand, h]

theorem resolveSrc_of_outside {s : State} {p : Slot} (k : Nat) (h : ReadsOutside s p) :
    resolveSrc s k p = .error (.badAddress .read (some k) p.raw) := by
  obtain ⟨m, r⟩ := p
  obtain ⟨rfl, h⟩ := h
  simp only [resolveSrc, State.rdOperand, Memory.read?_of_not_valid h]

/-- A write-target slot's address is its raw word, checked (R70). -/
theorem resolveDst_cases (s : State) (k : Nat) (p : Slot) :
    (s.mem.Valid p.raw ∧ resolveDst s k p = .ok p.raw) ∨
      (¬s.mem.Valid p.raw ∧ resolveDst s k p = .error (.badAddress .write (some k) p.raw)) := by
  unfold resolveDst State.chkDest
  split
  · exact .inl ⟨by assumption, rfl⟩
  · exact .inr ⟨by assumption, rfl⟩

theorem chkTarget_cases (s : State) (a : Word) :
    (s.mem.Valid a ∧ s.chkTarget a = .ok a.toNat) ∨
      (¬s.mem.Valid a ∧ s.chkTarget a = .error (.badAddress .jump none a)) := by
  unfold State.chkTarget
  split
  · exact .inl ⟨by assumption, rfl⟩
  · exact .inr ⟨by assumption, rfl⟩

/-- Two source slots: both values, or the first slot that is outside memory (R71). -/
theorem resolveTwo_cases (s : State) (a b : Slot) :
    (∃ x y, ReadsAs s a x ∧ ReadsAs s b y ∧ resolveTwo s a b = .ok (x, y)) ∨
      (ReadsOutside s a ∧ resolveTwo s a b = .error (.badAddress .read (some 1) a.raw)) ∨
      (∃ x, ReadsAs s a x ∧ ReadsOutside s b ∧ resolveTwo s a b = .error (.badAddress .read (some 2) b.raw)) := by
  unfold resolveTwo
  rcases resolveSrc_cases s 1 a with ⟨x, hx, ex⟩ | ⟨hx, ex⟩
  · rcases resolveSrc_cases s 2 b with ⟨y, hy, ey⟩ | ⟨hy, ey⟩
    · exact .inl ⟨x, y, hx, hy, by simp only [ex, ey]⟩
    · exact .inr (.inr ⟨x, hx, hy, by simp only [ex, ey]⟩)
  · exact .inr (.inl ⟨hx, by simp only [ex]⟩)

/-- Two sources and a destination: the three values, or the first slot that fails (R71). -/
theorem resolveThree_cases (s : State) (a b d : Slot) :
    (∃ x y, ReadsAs s a x ∧ ReadsAs s b y ∧ s.mem.Valid d.raw ∧ resolveThree s a b d = .ok (x, y, d.raw)) ∨
      (∃ c, resolveThree s a b d = .error c ∧
        ((ReadsOutside s a ∧ c = .badAddress .read (some 1) a.raw) ∨
          (∃ x, ReadsAs s a x ∧ ReadsOutside s b ∧ c = .badAddress .read (some 2) b.raw) ∨
          (∃ x y, ReadsAs s a x ∧ ReadsAs s b y ∧ ¬s.mem.Valid d.raw ∧
            c = .badAddress .write (some 3) d.raw))) := by
  unfold resolveThree
  rcases resolveTwo_cases s a b with ⟨x, y, hx, hy, e⟩ | ⟨hx, e⟩ | ⟨x, hx, hy, e⟩
  · rcases resolveDst_cases s 3 d with ⟨hd, ed⟩ | ⟨hd, ed⟩
    · exact .inl ⟨x, y, hx, hy, hd, by simp only [e, ed]⟩
    · exact .inr ⟨_, by simp only [e, ed], .inr (.inr ⟨x, y, hx, hy, hd, rfl⟩)⟩
  · exact .inr ⟨_, by simp only [e], .inl ⟨hx, rfl⟩⟩
  · exact .inr ⟨_, by simp only [e], .inr (.inl ⟨x, hx, hy, rfl⟩)⟩

/-- A slot reads as at most one value. -/
theorem ReadsAs.unique {s : State} {p : Slot} {v w : Word} (hv : ReadsAs s p v) (hw : ReadsAs s p w) : v = w := by
  have := (resolveSrc_of_reads 1 hv).symm.trans (resolveSrc_of_reads 1 hw)
  exact Except.ok.inj this

/-- A slot that reads outside memory has no value. -/
theorem ReadsAs.not_outside {s : State} {p : Slot} {v : Word} (hv : ReadsAs s p v) : ¬ReadsOutside s p := fun h =>
  nomatch (resolveSrc_of_reads 1 hv).symm.trans (resolveSrc_of_outside 1 h)

/-! ### Taking a fault -/

theorem takesFault_raise (s : State) (w : Option Word) (c : Cause) : TakesFault s w c (s.raise w c) where
  status := rfl
  record := ⟨_, rfl, rfl, rfl, rfl, rfl, rfl, rfl⟩
  mem := rfl
  pc := rfl
  inq := rfl
  outlog := rfl
  cfg := rfl

theorem faults_faultOutcome (i : Instr) (s : State) (c : Cause) : Faults (faultOutcome i s c) s (some i.word) c :=
  ⟨_, rfl, takesFault_raise s _ c⟩

/-! ### The two shared shapes -/

/-- Everything the F3 shape can do: a fault of a slot, a fault of stage E, or one store and the advance. -/
theorem execWrite_cases (i : Instr) (f : Word → Word → Except Cause Word) (a b d : Slot) (s : State) :
    (∃ c, resolveThree s a b d = .error c ∧ execWrite i f a b d s = .next (s.raise (some i.word) c)) ∨
      (∃ x y, ReadsAs s a x ∧ ReadsAs s b y ∧ s.mem.Valid d.raw ∧
        ((∃ c, f x y = .error c ∧ execWrite i f a b d s = .next (s.raise (some i.word) c)) ∨
          (∃ r, f x y = .ok r ∧ execWrite i f a b d s = .next ((s.wr d.raw r).advance 3)))) := by
  unfold execWrite faultOutcome
  rcases resolveThree_cases s a b d with ⟨x, y, hx, hy, hd, e⟩ | ⟨c, e, _⟩
  · refine .inr ⟨x, y, hx, hy, hd, ?_⟩
    cases h : f x y with
    | error c => exact .inl ⟨c, rfl, by simp only [e, h]⟩
    | ok r => exact .inr ⟨r, rfl, by simp only [e, h]⟩
  · exact .inl ⟨c, e, by simp only [e]⟩

/-- Everything the F2 shape can do: a fault of a slot, a taken jump to a valid or an invalid target, or the advance. -/
theorem execJump_cases (i : Instr) (taken : Word → Bool) (c t : Slot) (s : State) :
    (∃ e, resolveTwo s c t = .error e ∧ execJump i taken c t s = .next (s.raise (some i.word) e)) ∨
      (∃ x y, ReadsAs s c x ∧ ReadsAs s t y ∧
        ((taken x = true ∧ s.mem.Valid y ∧ execJump i taken c t s = .next (s.setPc y.toNat)) ∨
          (taken x = true ∧ ¬s.mem.Valid y ∧
            execJump i taken c t s = .next (s.raise (some i.word) (.badAddress .jump none y))) ∨
          (taken x = false ∧ execJump i taken c t s = .next (s.advance 2)))) := by
  unfold execJump faultOutcome
  rcases resolveTwo_cases s c t with ⟨x, y, hx, hy, e⟩ | ⟨_, e⟩ | ⟨x, _, _, e⟩
  · refine .inr ⟨x, y, hx, hy, ?_⟩
    cases hx : taken x with
    | false => exact .inr (.inr ⟨rfl, by simp [e, hx]⟩)
    | true =>
      rcases chkTarget_cases s y with ⟨hy, ey⟩ | ⟨hy, ey⟩
      · exact .inl ⟨rfl, hy, by simp [e, hx, ey]⟩
      · exact .inr (.inl ⟨rfl, hy, by simp [e, hx, ey]⟩)
  · exact .inl ⟨_, e, by simp only [e]⟩
  · exact .inl ⟨_, e, by simp only [e]⟩

/-! ### IN and OUT -/

/-- Everything IN can do (R110). -/
theorem execInp_cases (d : Slot) (m2 m3 : Mode) (s : State) :
    (¬s.mem.Valid d.raw ∧ execInp d m2 m3 s =
        .next (s.raise (some (Instr.inp d m2 m3).word) (.badAddress .write (some 1) d.raw))) ∨
      (s.mem.Valid d.raw ∧ s.inq = [] ∧
        execInp d m2 m3 s = .next (s.raise (some (Instr.inp d m2 m3).word) .inputExhausted)) ∨
      (∃ x rest, s.mem.Valid d.raw ∧ s.inq = x :: rest ∧
        execInp d m2 m3 s = .next ((s.wr d.raw x).inPop.advance 1)) := by
  unfold execInp faultOutcome State.inHead?
  rcases resolveDst_cases s 1 d with ⟨hd, e⟩ | ⟨hd, e⟩
  · cases h : s.inq with
    | nil => exact .inr (.inl ⟨hd, rfl, by simp [e]⟩)
    | cons x rest => exact .inr (.inr ⟨x, rest, hd, rfl, by simp [e]⟩)
  · exact .inl ⟨hd, by simp only [e]⟩

/-- Everything OUT can do (R111). -/
theorem execOut_cases (a : Slot) (m2 m3 : Mode) (s : State) :
    (ReadsOutside s a ∧ execOut a m2 m3 s =
        .next (s.raise (some (Instr.out a m2 m3).word) (.badAddress .read (some 1) a.raw))) ∨
      (∃ x, ReadsAs s a x ∧ execOut a m2 m3 s = .next ((s.outPush x).advance 1)) := by
  unfold execOut faultOutcome
  rcases resolveSrc_cases s 1 a with ⟨x, hx, e⟩ | ⟨hx, e⟩
  · exact .inr ⟨x, hx, by simp only [e]⟩
  · exact .inl ⟨hx, by simp only [e]⟩

/-! ### The ALU -/

/-- An exact result is either a word and the result, or the overflow fault (R88). -/
theorem checked_cases (W : Nat) (op : AluOp) (a b r : Word) :
    (InWord W r ∧ checked W op a b r = .ok r) ∨ (¬InWord W r ∧ checked W op a b r = .error (.overflow op a b)) := by
  unfold checked
  split
  · exact .inl ⟨by assumption, rfl⟩
  · exact .inr ⟨by assumption, rfl⟩

theorem inWord_zero (W : Nat) : InWord W 0 := inWord_unlisted W

/-- 1 is a word of every legal width (R6). -/
theorem inWord_one {W : Nat} (h : minWordBits ≤ W) : InWord W 1 := by
  unfold minWordBits at h
  have h2 : 2 ^ 1 ≤ 2 ^ (W - 1) := Nat.pow_le_pow_right (by omega) (by omega)
  unfold InWord wordLimit
  omega

/-! ### The step -/

/-- Everything a step can do from a Running state (R80 to R82). -/
theorem step_running {s : State} (h : s.status = .running) :
    (∃ r, decode s.fetchWords = .error r ∧ step s = .next (s.raiseReject r)) ∨
      (∃ i rest, decode s.fetchWords = .ok (i, rest) ∧ step s = exec i s) := by
  unfold step
  simp only [h]
  cases hd : decode s.fetchWords with
  | error r => exact .inl ⟨r, rfl, rfl⟩
  | ok p => exact .inr ⟨p.1, p.2, rfl, rfl⟩

/-- A step that gives a next state started Running (R80). -/
theorem running_of_step {s t : State} (h : step s = .next t) : s.status = .running := by
  unfold step at h
  cases hs : s.status with
  | running => rfl
  | halted => simp [hs] at h
  | faulted => simp [hs] at h

end Sys2Proof.Machine
end

