-- ==== Sys2Proof/Laws/Fetch.lean ====
section
/-! SUPPORT. The words at the program counter (spec 30_encoding.md R60), and what a step does with them. -/

namespace Sys2Proof.Machine

/-- The fetched words are the next words of memory, as many as there are up to four. -/
theorem fetchWords_eq (s : State) :
    s.fetchWords = (List.range (min 4 (s.mem.size - s.pc))).map fun k => cellAt s.mem.cells (s.pc + k) := by
  have read : ∀ k : Nat, s.mem.read? ((s.pc + k : Nat) : Int) =
      if k < s.mem.size - s.pc then some (cellAt s.mem.cells (s.pc + k)) else none := by
    intro k
    by_cases h : k < s.mem.size - s.pc
    · rw [if_pos h, Memory.read?_of_valid (by constructor <;> omega), Int.toNat_natCast]
    · rw [if_neg h, Memory.read?_of_not_valid (by rintro ⟨_, h2⟩; omega)]
  have range4 : List.range 4 = [0, 1, 2, 3] := rfl
  simp only [State.fetchWords, read, range4]
  generalize s.mem.size - s.pc = n
  match n with
  | 0 => rfl
  | 1 => rfl
  | 2 => rfl
  | 3 => rfl
  | k + 4 =>
    have : min 4 (k + 4) = 4 := by omega
    rw [this]
    simp [range4]

theorem fetchWords_length (s : State) : s.fetchWords.length = min 4 (s.mem.size - s.pc) := by
  simp [fetchWords_eq]

theorem fetchWords_getElem? (s : State) {k : Nat} (h : k < 4) :
    s.fetchWords[k]? = s.mem.read? ((s.pc + k : Nat) : Int) := by
  rw [fetchWords_eq]
  by_cases hk : k < s.mem.size - s.pc
  · rw [Memory.read?_of_valid (by constructor <;> omega), Int.toNat_natCast]
    simp [h, hk]
  · rw [Memory.read?_of_not_valid (by rintro ⟨_, h2⟩; omega)]
    simp [hk]

/-- No word is fetched exactly when pc is not a valid address (R152). -/
theorem fetchWords_eq_nil_iff (s : State) : s.fetchWords = [] ↔ s.mem.size ≤ s.pc := by
  rw [← List.length_eq_zero_iff, fetchWords_length]
  omega

/-- The first fetched word is the instruction word `M[pc]`. -/
theorem fetchWords_cons {s : State} {w : Word} {rest : List Word} (h : s.fetchWords = w :: rest) :
    s.mem.read? (s.pc : Int) = some w := by
  have := fetchWords_getElem? s (k := 0) (by decide)
  rw [h] at this
  simpa using this.symm

/-- A readable pc fetches its word first, and as many words after it as there are, up to three. -/
theorem fetchWords_of_read {s : State} {w : Word} (h : s.mem.read? (s.pc : Int) = some w) :
    ∃ rest, s.fetchWords = w :: rest ∧ rest.length = min 3 (s.mem.size - 1 - s.pc) := by
  cases hf : s.fetchWords with
  | nil =>
    have h1 := (fetchWords_eq_nil_iff s).mp hf
    have h2 := ((Memory.read?_eq_some_iff _ _ _).mp h).1.2
    omega
  | cons v rest =>
    have h1 := fetchWords_cons hf
    rw [h] at h1
    have h2 := fetchWords_length s
    rw [hf, List.length_cons] at h2
    exact ⟨rest, by rw [Option.some.inj h1], by omega⟩

/-- Every fetched word of a memory that holds words is a word. -/
theorem fetchWords_inWord {s : State} {W : Nat} (h : s.mem.InRange W) {w : Word} (hw : w ∈ s.fetchWords) :
    InWord W w := by
  obtain ⟨k, hk⟩ := List.getElem?_of_mem hw
  have hlt : k < 4 := by
    have h1 := List.getElem?_eq_some_iff.mp hk
    have h2 := fetchWords_length s
    obtain ⟨h1, _⟩ := h1
    omega
  rw [fetchWords_getElem? s hlt] at hk
  exact Memory.read?_inWord h hk

/-! ### What an instruction can do -/

/-- Everything `exec` can answer: a fault, one store and the advance, one input, one output, a jump to a valid address,
the fall-through of a jump, or the halt (R84, R85). -/
theorem exec_cases (i : Instr) (s : State) :
    (∃ c, exec i s = .next (s.raise (some i.word) c)) ∨
      (∃ a v, i.op.arity = 3 ∧ s.mem.Valid a ∧ (s.cfg.WF → InWord s.cfg.wordBits v) ∧
        exec i s = .next ((s.wr a v).advance 3)) ∨
      (∃ d m2 m3 x rest, i = .inp d m2 m3 ∧ s.mem.Valid d.raw ∧ s.inq = x :: rest ∧
        exec i s = .next ((s.wr d.raw x).inPop.advance 1)) ∨
      (∃ a m2 m3 x, i = .out a m2 m3 ∧ ReadsAs s a x ∧ exec i s = .next ((s.outPush x).advance 1)) ∨
      (∃ y, (i.op = .jt ∨ i.op = .jf) ∧ s.mem.Valid y ∧ exec i s = .next (s.setPc y.toNat)) ∨
      ((i.op = .jt ∨ i.op = .jf) ∧ exec i s = .next (s.advance 2)) ∨
      (i.op = .halt ∧ exec i s = .next s.halt) := by
  have write : ∀ (f : Word → Word → Except Cause Word) (a b d : Slot), i.op.arity = 3 →
      exec i s = execWrite i f a b d s → (∀ x y r, f x y = .ok r → s.cfg.WF → InWord s.cfg.wordBits r) →
      (∃ c, exec i s = .next (s.raise (some i.word) c)) ∨
        (∃ a v, i.op.arity = 3 ∧ s.mem.Valid a ∧ (s.cfg.WF → InWord s.cfg.wordBits v) ∧
          exec i s = .next ((s.wr a v).advance 3)) := by
    intro f a b d h3 he hf
    rcases execWrite_cases i f a b d s with ⟨c, _, e⟩ | ⟨x, y, _, _, hd, ⟨c, _, e⟩ | ⟨r, hr, e⟩⟩
    · exact .inl ⟨c, he.trans e⟩
    · exact .inl ⟨c, he.trans e⟩
    · exact .inr ⟨d.raw, r, h3, hd, hf x y r hr, he.trans e⟩
  have jump : ∀ (taken : Word → Bool) (c t : Slot), (i.op = .jt ∨ i.op = .jf) → exec i s = execJump i taken c t s →
      (∃ c, exec i s = .next (s.raise (some i.word) c)) ∨
        (∃ y, (i.op = .jt ∨ i.op = .jf) ∧ s.mem.Valid y ∧ exec i s = .next (s.setPc y.toNat)) ∨
        ((i.op = .jt ∨ i.op = .jf) ∧ exec i s = .next (s.advance 2)) := by
    intro taken c t hop he
    rcases execJump_cases i taken c t s with ⟨e, _, ee⟩ | ⟨x, y, _, _, ⟨_, hy, ee⟩ | ⟨_, _, ee⟩ | ⟨_, ee⟩⟩
    · exact .inl ⟨e, he.trans ee⟩
    · exact .inr (.inl ⟨y, hop, hy, he.trans ee⟩)
    · exact .inl ⟨_, he.trans ee⟩
    · exact .inr (.inr ⟨hop, he.trans ee⟩)
  have alu : ∀ op x y r v, checked s.cfg.wordBits op x y r = .ok v → s.cfg.WF → InWord s.cfg.wordBits v := by
    intro op x y r v h _
    rcases checked_cases s.cfg.wordBits op x y r with ⟨hr, e⟩ | ⟨_, e⟩ <;> rw [e] at h <;> cases h
    exact hr
  have bit : ∀ (p : Prop) [Decidable p] (v : Word), (Except.ok (if p then 1 else 0) : Except Cause Word) = .ok v →
      s.cfg.WF → InWord s.cfg.wordBits v := by
    intro p _ v h hw
    cases h
    split
    · exact inWord_one hw
    · exact inWord_zero _
  cases i with
  | add a b d =>
    exact (write _ a b d rfl rfl fun x y r => alu .add x y (x + y) r).imp_right .inl
  | mul a b d =>
    exact (write _ a b d rfl rfl fun x y r => alu .mul x y (x * y) r).imp_right .inl
  | lt a b d =>
    exact (write _ a b d rfl rfl fun x y r => bit (x < y) r).imp_right .inl
  | eq a b d =>
    exact (write _ a b d rfl rfl fun x y r => bit (x = y) r).imp_right .inl
  | jt c t m3 =>
    exact (jump _ c t (.inl rfl) rfl).imp_right fun h => .inr (.inr (.inr (h.imp_right .inl)))
  | jf c t m3 =>
    exact (jump _ c t (.inr rfl) rfl).imp_right fun h => .inr (.inr (.inr (h.imp_right .inl)))
  | inp d m2 m3 =>
    rcases execInp_cases d m2 m3 s with ⟨_, e⟩ | ⟨_, _, e⟩ | ⟨x, rest, hd, hq, e⟩
    · exact .inl ⟨_, e⟩
    · exact .inl ⟨_, e⟩
    · exact .inr (.inr (.inl ⟨d, m2, m3, x, rest, rfl, hd, hq, e⟩))
  | out a m2 m3 =>
    rcases execOut_cases a m2 m3 s with ⟨_, e⟩ | ⟨x, hx, e⟩
    · exact .inl ⟨_, e⟩
    · exact .inr (.inr (.inr (.inl ⟨a, m2, m3, x, rfl, hx, e⟩)))
  | halt m1 m2 m3 => exact .inr (.inr (.inr (.inr (.inr (.inr ⟨rfl, rfl⟩)))))

/-- Every instruction answers a next state, in every state (R80): a step of CORE never stops but by the status. -/
theorem exec_answers (i : Instr) (s : State) : ∃ t, exec i s = .next t := by
  rcases exec_cases i s with ⟨_, e⟩ | ⟨_, _, _, _, _, e⟩ | ⟨_, _, _, _, _, _, _, _, e⟩ | ⟨_, _, _, _, _, _, e⟩ |
    ⟨_, _, _, e⟩ | ⟨_, e⟩ | ⟨_, e⟩ <;> exact ⟨_, e⟩

end Sys2Proof.Machine
end

