-- ==== Sys2Proof/Laws/PerInstr.lean ====
section
/-! SUPPORT. Laws of the instruction as syntax, one lemma per constructor. -/

namespace Sys2Proof

namespace Laws

/-- The instruction word decodes to the instruction's opcode and mode digits, and the encoding has the width of R63:
1 + arity words (R72, R76). -/
def EncodedHead.Statement (i : Instr) : Prop :=
  decodeHead i.word = .ok i.head ∧ i.head.op = i.op ∧ (encode i).length = i.op.width

theorem EncodedHead.add (a b d : Slot) : EncodedHead.Statement (.add a b d) := ⟨decodeHead_word _, rfl, rfl⟩

theorem EncodedHead.mul (a b d : Slot) : EncodedHead.Statement (.mul a b d) := ⟨decodeHead_word _, rfl, rfl⟩

theorem EncodedHead.inp (d : Slot) (m2 m3 : Mode) : EncodedHead.Statement (.inp d m2 m3) := ⟨decodeHead_word _, rfl, rfl⟩

theorem EncodedHead.out (a : Slot) (m2 m3 : Mode) : EncodedHead.Statement (.out a m2 m3) := ⟨decodeHead_word _, rfl, rfl⟩

theorem EncodedHead.jt (c t : Slot) (m3 : Mode) : EncodedHead.Statement (.jt c t m3) := ⟨decodeHead_word _, rfl, rfl⟩

theorem EncodedHead.jf (c t : Slot) (m3 : Mode) : EncodedHead.Statement (.jf c t m3) := ⟨decodeHead_word _, rfl, rfl⟩

theorem EncodedHead.lt (a b d : Slot) : EncodedHead.Statement (.lt a b d) := ⟨decodeHead_word _, rfl, rfl⟩

theorem EncodedHead.eq (a b d : Slot) : EncodedHead.Statement (.eq a b d) := ⟨decodeHead_word _, rfl, rfl⟩

theorem EncodedHead.halt (m1 m2 m3 : Mode) : EncodedHead.Statement (.halt m1 m2 m3) := ⟨decodeHead_word _, rfl, rfl⟩

end Laws

end Sys2Proof
end

