-- ==== Sys2Proof/Tests/Slice0.lean ====
section
/-! SUPPORT. The model's own tests. Expected results are the spec's: the encodings of 30_encoding.md, the vectors of
95_test_vectors.md (named in each comment), or hand calculation from a rule. Each runs at most one instruction; the
second part shows, for each statement with hypotheses, values that meet them. -/

open Sys2Proof Sys2Proof.Machine

namespace Sys2Proof.Tests

/-! ## Helpers -/

/-- The next state an outcome gives, if it gives one. -/
def nextState? : Host.Outcome State Fault Refusal → Option State
  | .next t => some t
  | .fault _ => none
  | .refused _ => none

theorem next_of {o : Host.Outcome State Fault Refusal} {t : State} (h : nextState? o = some t) : o = .next t := by
  cases o <;> cases h
  rfl

/-- The launch state of a program at width 18, the width of the spec's concrete vectors. -/
def launch (image inputs : List Word) : State := State.load ⟨18⟩ image inputs

/-- The state after one step of a program. -/
def after (image inputs : List Word) : Option State := nextState? (step (launch image inputs))

/-- What one step of a program leaves: pc, all of memory, the queue and the log. -/
def leaves (image inputs : List Word) : Option (Nat × List Word × List Word × List Word) :=
  (after image inputs).map fun t => (t.pc, t.mem.words, t.inq, t.outlog)

/-- The fault record one step of a program leaves. -/
def record (image inputs : List Word) : Option FaultRecord := (after image inputs).bind State.fault

/-- A Positional and an Immediate slot. -/
abbrev pos (r : Word) : Slot := ⟨.positional, r⟩
abbrev imm (r : Word) : Slot := ⟨.immediate, r⟩

/-! ## Decoding: a word of every row, written out from R61 and R63 -/

theorem test_decode_add : decode [1, 5, -6, 7, 8] = .ok (.add (pos 5) (pos (-6)) (pos 7), [8]) := by decide
theorem test_decode_mul : decode [1002, 4, 3, 4] = .ok (.mul (pos 4) (imm 3) (pos 4), []) := by decide
theorem test_decode_inp : decode [10103, 3] = .ok (.inp (imm 3) .positional .immediate, []) := by decide
theorem test_decode_out : decode [1004, 0] = .ok (.out (pos 0) .immediate .positional, []) := by decide
theorem test_decode_jt : decode [105, 1, 4] = .ok (.jt (imm 1) (pos 4) .positional, []) := by decide
theorem test_decode_jf : decode [11006, 15, 14] = .ok (.jf (pos 15) (imm 14) .immediate, []) := by decide
theorem test_decode_lt : decode [11107, 3, 5, 5] = .ok (.lt (imm 3) (imm 5) (imm 5), []) := by decide
theorem test_decode_eq : decode [10008, 9, 10, 9] = .ok (.eq (pos 9) (pos 10) (imm 9), []) := by decide
theorem test_decode_halt : decode [1099, 7] = .ok (.halt .positional .immediate .positional, [7]) := by decide

/-- 95_test_vectors.md 2.1: the rejections, the opcode before the digits and the lowest slot first. -/
theorem test_decode_rejects :
    decodeHead 100 = .error (.unknownOpcode 0) ∧ decodeHead 109 = .error (.unknownOpcode 9) ∧
      decodeHead 22201 = .error (.badModeDigit 1 2) ∧ decodeHead 2001 = .error (.badModeDigit 2 2) ∧
      decodeHead 30004 = .error (.badModeDigit 3 3) ∧ decodeHead 99999 = .error (.badModeDigit 1 9) ∧
      decodeHead 100001 = .error .wordOutOfRange ∧ decodeHead (-1) = .error .wordOutOfRange := by decide

/-- R67, R72: fewer words than the arity, and no word at all. -/
theorem test_decode_truncated :
    decode [1, 0, 0] = .error (.truncated 1 3 2) ∧ decode [4] = .error (.truncated 4 1 0) ∧
      decode [] = .error .noWord := by decide

/-- R76: the words an instruction is written as. -/
theorem test_encode : encode (.add (imm 2) (imm 3) (imm 5)) = [11101, 2, 3, 5] ∧
    encode (.inp (pos 7) .positional .immediate) = [10003, 7] ∧ encode (.halt .immediate .positional .positional) = [199] := by
  decide

/-- The table's numbering: OUT's word is 4, and 1101 in 16 bits is ADD with Immediate sources. -/
theorem test_table_words :
    decodeTableWord 8 4 = some (.out (pos 0) .positional .positional) ∧
      decodeTableWord 16 1101 = some (.add (imm 0) (imm 0) (pos 0)) ∧ decodeTableWord 8 0 = none := by decide

/-- A placed instruction is the first a Running machine runs: OUT of word 0, which is the instruction word 4. -/
theorem test_fetch_word : (nextState? (step (State.reset.withFetchWord 8 4))).map State.outlog = some [4] := by decide

/-! ## Well-formedness: one ill-formed term for each slot, and each end of the range -/

theorem test_wf_accepts : (Instr.add (pos 131071) (imm (-131072)) (pos 0)).WellFormed 18 := by decide
theorem test_wf_slot1 : ¬(Instr.add (pos 131072) (imm 0) (pos 0)).WellFormed 18 := by decide
theorem test_wf_slot2 : ¬(Instr.jt (pos 0) (imm (-131073)) .positional).WellFormed 18 := by decide
theorem test_wf_slot3 : ¬(Instr.eq (pos 0) (imm 0) (pos 131072)).WellFormed 18 := by decide
theorem test_wf_single : ¬(Instr.inp (pos 131072) .positional .positional).WellFormed 18 := by decide

/-! ## One step of each instruction -/

/-- 95_test_vectors.md 2.2: an Immediate -1 is a value: -1 + M[0] = 100, written over the instruction itself. -/
theorem test_add_immediate_negative :
    leaves [101, -1, 0, 0, 99] [] = some (4, [100, -1, 0, 0, 99], [], []) := by decide
/-- 95_test_vectors.md 2.3: MAX + 1 overflows, code 5. -/
theorem test_add_overflow : record [1101, 131071, 1, 0, 99] [] =
    some ⟨.arithmeticOverflowFault, 5, 0, some 1101, some 1, .overflow .add 131071 1⟩ := by decide
/-- V-S5: M[4] <- 33 * 3, the destination being a source. -/
theorem test_mul_aliases : leaves [1002, 4, 3, 4, 33] [] = some (4, [1002, 4, 3, 4, 99], [], []) := by decide
/-- 95_test_vectors.md 2.3: MIN * -1 overflows. -/
theorem test_mul_overflow : record [1102, -131072, -1, 0, 99] [] =
    some ⟨.arithmeticOverflowFault, 5, 0, some 1102, some 2, .overflow .mul (-131072) (-1)⟩ := by decide
/-- 95_test_vectors.md 2.4: the front input is taken, digit 1 on the dst slot is ignored. -/
theorem test_inp_takes_front : leaves [103, 3, 99, 0] [7, 8] = some (2, [103, 3, 99, 7], [8], []) := by decide
/-- 95_test_vectors.md 2.4: the address check comes before the queue check. -/
theorem test_inp_priority : record [3, -1] [] =
    some ⟨.addressFault, 2, 0, some 3, some 3, .badAddress .write (some 1) (-1)⟩ := by decide
/-- 95_test_vectors.md 2.4: OUT of an address, and of an Immediate negative. -/
theorem test_out_positional : leaves [4, 3, 99, 77] [] = some (2, [4, 3, 99, 77], [], [77]) := by decide
theorem test_out_immediate : leaves [104, -5, 99] [] = some (2, [104, -5, 99], [], [-5]) := by decide
/-- 95_test_vectors.md 2.5: taken on a negative condition; an untaken target is not checked. -/
theorem test_jt_taken : leaves [1105, -1, 4, 99, 99] [] = some (4, [1105, -1, 4, 99, 99], [], []) := by decide
theorem test_jt_untaken : leaves [1105, 0, -5, 99] [] = some (3, [1105, 0, -5, 99], [], []) := by decide
/-- 95_test_vectors.md 2.5: JF jumps on 0, and checks the target then. -/
theorem test_jf_taken : leaves [1106, 0, 4, 99, 99] [] = some (4, [1106, 0, 4, 99, 99], [], []) := by decide
theorem test_jf_target : record [1106, 0, -1, 99] [] =
    some ⟨.addressFault, 2, 0, some 1106, some 6, .badAddress .jump none (-1)⟩ := by decide
/-- 95_test_vectors.md 2.6: the comparison is signed. -/
theorem test_lt_signed : leaves [1107, 5, -5, 0, 99] [] = some (4, [0, 5, -5, 0, 99], [], []) := by decide
theorem test_lt_true : leaves [1107, 3, 5, 5, 99, 7] [] = some (4, [1107, 3, 5, 5, 99, 1], [], []) := by decide
/-- 95_test_vectors.md 2.6: both sources are the word the result overwrites. -/
theorem test_eq_aliases : leaves [8, 0, 0, 0, 99] [] = some (4, [1, 0, 0, 0, 99], [], []) := by decide
theorem test_eq_false : leaves [1108, -1, 1, 0, 99] [] = some (4, [0, -1, 1, 0, 99], [], []) := by decide
/-- R140: HALT keeps pc, memory and the unused inputs. -/
theorem test_halt : after [99] [1, 2] = some { launch [99] [1, 2] with status := .halted } := by decide
/-- R65: HALT's idle digits are checked. -/
theorem test_halt_digit : record [299] [] = some ⟨.decodeFault, 1, 0, some 299, some 99, .badModeDigit 1 2⟩ := by decide

/-! ## The host's side -/

/-- 95_test_vectors.md 2.8: texts that parse and texts that do not. -/
theorem test_parse_accepts :
    parseProgram 18 [' ', '1', ' ', ',', ' ', '2', ' ', ',', '3', '\n', '\n'] = .ok [1, 2, 3] ∧
      parseProgram 18 ['+', '5', ',', '-', '5'] = .ok [5, -5] ∧ parseProgram 18 ['1', ',', '2', '\r', '\n'] = .ok [1, 2] := by
  decide
theorem test_parse_refuses :
    parseProgram 18 ['1', ',', ',', '2'] = .error (.badToken 1) ∧ parseProgram 18 ['1', ',', '2', ','] = .error (.badToken 2) ∧
      parseProgram 18 [] = .error (.lineCount 0) ∧ parseProgram 18 ['1', '\n', '2'] = .error (.lineCount 2) ∧
      parseProgram 18 ['1', '.', '5'] = .error (.badToken 0) ∧
      parseProgram 18 ['1', '3', '1', '0', '7', '2'] = .error (.notAWord 0) := by decide
/-- 95_test_vectors.md 2.8: `run_with_noun_verb("99", 1, 2)`. -/
theorem test_noun_verb_short : runWithNounVerb 9 ⟨18⟩ ['9', '9'] 1 2 =
    .err ⟨.addressFault, 2, 0, none, none, .badAddress .hostWrite none 1⟩ := by decide
/-- R77: a line of program P2 and its comment, assembled at its address. -/
theorem test_assemble : assembleText ['0', ':', ' ', 'J', 'F', ' ', '[', '1', '5', ']', ',', ' ', '#', '1', '4', ' ', ';', ' ', 'x'] =
    .ok [1006, 15, 14] := by decide
/-- R77: the wrong address, the wrong operand count, and `#v` in a dst slot are refused. -/
theorem test_assemble_refuses :
    assemble [⟨some 1, .instr .halt []⟩] = .error (.wrongAddress 1 0) ∧
      assemble [⟨none, .instr .halt [.hash 1]⟩] = .error (.operandCount .halt 1) ∧
      assemble [⟨none, .instr .inp [.hash 1]⟩] = .error (.hashDestination .inp 1) := by decide
/-- R77: a digit 1 on a dst slot is printed as `[a]`, so a listing holds such words as DATA. -/
theorem test_disassemble : disassemble (.inp (imm 3) .positional .positional) = .instr .inp [.bracket 3] ∧
    listingStmt (.inp (imm 3) .positional .positional) = .data [103, 3] ∧
    listingStmt (.inp (pos 3) .positional .positional) = .instr .inp [.bracket 3] := by decide

/-! ## Witnesses: values that meet the hypotheses of each statement together -/

/-- A launched program meets the invariant when its words and inputs are words. -/
theorem launch_inv {image inputs : List Word} (h : ∀ v ∈ image, InWord 18 v) (hi : ∀ v ∈ inputs, InWord 18 v) :
    (launch image inputs).Inv where
  width := Nat.le_refl 18
  canonical := Memory.wf_ofWords image
  memWords := Memory.inRange_ofWords h
  pcBound := Nat.zero_le _
  inqWords := hi
  outlogWords := fun _ hx => nomatch hx
  faultIff := by simp [launch, State.load]
  recordSound := fun _ hr => nomatch hr

/-- ResetStartsRunningAtZero; LoadPlacesTheImage at the ends of an image with a 0 in it. -/
theorem witness_load : decode (([104, 7, 99] : List Word).take 4) = .ok (.out (imm 7) .positional .positional, [99]) ∧
    (State.load ⟨18⟩ [5, 0, -7] []).mem.read? 2 = some (-7) ∧
    (State.load ⟨18⟩ [5, 0, -7] []).mem.read? 1 = some 0 ∧ (State.load ⟨18⟩ [5, 0, -7] []).mem.read? 3 = none ∧
    (State.load ⟨18⟩ [5, 0, -7] []).mem.read? (-1) = none := by decide
/-- NounVerbLoad: an image of 3, of 2 and of 1. -/
theorem witness_nounVerb : 3 ≤ [(1 : Word), 0, 0].length ∧ [(1 : Word), 0].length = 2 ∧ [(1 : Word)].length = 1 := by decide
/-- ParsedImageHoldsWords, ProgramTextParsesBack: the two ends of the range. -/
theorem witness_parse : parseProgram 18 (programText [131071, -131072]) = .ok [131071, -131072] ∧
    ([131071, -131072] : List Word) ≠ [] ∧ ∀ v ∈ ([131071, -131072] : List Word), InWord 18 v := by decide
/-- RunToHaltReportsTheEnd: a run that halts, one that faults, one whose fuel runs out. -/
theorem witness_runToHalt : parseProgram 18 ['9', '9'] = .ok [99] ∧ (∀ x ∈ ([1] : List Word), InWord 18 x) ∧
    (finalState 1 (State.load ⟨18⟩ [99] [1])).map State.status = some .halted ∧
    parseProgram 18 ['9'] = .ok [9] ∧ (finalState 1 (State.load ⟨18⟩ [9] [1])).map State.status = some .faulted ∧
    finalState 0 (State.load ⟨18⟩ [9] [1]) = none := by decide
/-- RunWithNounVerbReportsMemory: a run that halts and one that faults. -/
theorem witness_runWithNounVerb : parseProgram 18 ['9', '9', ',', '0', ',', '0'] = .ok [99, 0, 0] ∧
    (∃ s, State.loadNounVerb ⟨18⟩ [99, 0, 0] 1 2 = .ok s ∧ (finalState 1 s).map State.status = some .halted) ∧
    InWord 18 1 ∧ InWord 18 2 ∧ parseProgram 18 ['9', ',', '0', ',', '0'] = .ok [9, 0, 0] ∧
    (∃ s, State.loadNounVerb ⟨18⟩ [9, 0, 0] 1 2 = .ok s ∧ (finalState 1 s).map State.status = some .faulted) :=
  ⟨by decide, ⟨_, rfl, by decide⟩, by decide, by decide, by decide, ⟨_, rfl, by decide⟩⟩
/-- LoadMeetsInvariant. -/
theorem witness_loadInv : (⟨18⟩ : Config).WF ∧ (∀ v ∈ ([99, -131072, 0] : List Word), InWord 18 v) ∧
    (∀ x ∈ ([131071] : List Word), InWord 18 x) ∧ ∃ s, State.loadNounVerb ⟨18⟩ [99, -131072, 0] 1 2 = .ok s :=
  ⟨by decide, by decide, by decide, ⟨_, rfl⟩⟩
/-- StepKeepsInvariant, StepKeepsWidthAndSize, FinalStateIsTerminal, RunGrowsOutputAndDrainsInput. -/
theorem witness_step : (launch [99] [1]).Inv ∧ step (launch [99] [1]) = .next (launch [99] [1]).halt ∧
    finalState 1 (launch [99] [1]) = some (launch [99] [1]).halt :=
  ⟨launch_inv (by decide) (by decide), next_of (by decide), by decide⟩
/-- CanonicalMemoryIsItsWords: a word written and set back to the unlisted value. -/
theorem witness_canonical : (((Memory.ofWords [0, 7]).write 0 5).write 0 0).wf = true ∧ (Memory.ofWords [0, 7]).wf = true ∧
    ∀ a : Int, (((Memory.ofWords [0, 7]).write 0 5).write 0 0).read? a = (Memory.ofWords [0, 7]).read? a :=
  ⟨by decide, by decide, fun _ => congrArg (fun m => Memory.read? m _) (by decide)⟩
/-- DecodedInstructionIsWellFormed, StepRunsDecodedInstruction. -/
theorem witness_decoded : (launch [104, -5, 99] []).Inv ∧ (launch [104, -5, 99] []).status = .running ∧
    decode (launch [104, -5, 99] []).fetchWords = .ok (.out (imm (-5)) .positional .positional, [99]) :=
  ⟨launch_inv (by decide) (by decide), rfl, by decide⟩
/-- StepOnlyFromRunning: a Running state and a state that is not. -/
theorem witness_status : (launch [99] []).status = .running ∧ (launch [99] []).halt.status ≠ .running := by decide
/-- StepRunsEncodedInstruction: the last word of memory is a HALT. -/
theorem witness_encoded : (launch [199] []).status = .running ∧
    ∀ (k : Nat) (w : Word), (encode (.halt .immediate .positional .positional))[k]? = some w →
      (launch [199] []).mem.read? (((launch [199] []).pc + k : Nat) : Int) = some w := by
  refine ⟨rfl, fun k w h => ?_⟩
  match k with
  | 0 =>
    cases h
    decide
  | k + 1 => simp [encode, Instr.raws] at h
/-- FaultWritesTheRecordOnly: a word in range, a word out of range, and no word. -/
theorem witness_fault :
    (after [0] []).map State.status = some .faulted ∧ (record [0] []).map (fun r => (r.word, r.opcode)) = some (some 0, some 0) ∧
      (record [100000] []).map (fun r => (r.word, r.opcode)) = some (some 100000, none) ∧
      (record [-1] []).map (fun r => (r.word, r.opcode)) = some (some (-1), none) ∧
      (record [] []).map (fun r => (r.word, r.opcode)) = some (none, none) := by decide
/-- ProgramCounterWrittenInTwoWays: an advance and a jump. -/
theorem witness_pc : (after [104, 1, 99] []).map State.pc = some 2 ∧ (after [1105, 1, 3, 99] []).map State.pc = some 3 := by
  decide
/-- OnlyInputTakesFromTheQueue, OnlyOutputAppendsToTheLog, OutputLogIsNeverRead. -/
theorem witness_io : (after [3, 0] [7]).map State.inq = some [] ∧ (launch [3, 0] [7]).inq = [7] ∧
    (after [104, 9] []).map State.outlog = some [9] ∧ (launch [104, 9] []).outlog = [] := by decide
/-- WiderWordsOnlyRemoveOverflow: a step that completes, a fault of another kind, and an overflow that 19 bits remove and
one they do not. -/
theorem witness_wider : (launch [1101, 131070, 1, 0] []).cfg.wordBits ≤ 19 ∧
    (after [1101, 131070, 1, 0] []).map State.status = some .running ∧
    (record [4, -1] []).map FaultRecord.kind = some .addressFault ∧
    (record [1101, 131071, 1, 0] []).map FaultRecord.kind = some .arithmeticOverflowFault ∧
    (nextState? (step (State.load ⟨19⟩ [1101, 131071, 1, 0] []))).map State.status = some .running ∧
    (record [1102, 131071, 131071, 0] []).map FaultRecord.kind = some .arithmeticOverflowFault ∧
    (nextState? (step (State.load ⟨19⟩ [1102, 131071, 131071, 0] []))).map State.status = some .faulted := by decide
/-- SelfJumpNeverEnds: `1105,1,0`. -/
theorem witness_selfJump : (launch [1105, 1, 0] []).status = .running ∧ (1 : Word) ≠ 0 ∧
    decode (launch [1105, 1, 0] []).fetchWords = .ok (.jt ⟨.immediate, 1⟩ ⟨.immediate, 0⟩ .positional, []) ∧
    (launch [1105, 1, 0] []).pc < (launch [1105, 1, 0] []).mem.size := by decide
/-- DecodedWordsAreTheEncoding. -/
theorem witness_decodedWords : decode [1002, 4, 3, 4, 33] = .ok (.mul (pos 4) (imm 3) (pos 4), [33]) := by decide
/-- LegalWordsAreSeventyTwo: an illegal word at pc. -/
theorem witness_illegal : (launch [98] []).status = .running ∧ (launch [98] []).mem.read? 0 = some 98 ∧
    (98 : Word) ∉ legalHeads.map Head.word := by decide
/-- DecodeFaultCauses: each clause at the ends of its range. -/
theorem witness_decodeFault :
    (launch [-1] []).mem.read? 0 = some (-1) ∧ (launch [100000] []).mem.read? 0 = some 100000 ∧
      (99900 % 100 ∉ [1, 2, 3, 4, 5, 6, 7, 8, 99] ∧ 9 % 100 ∉ [1, 2, 3, 4, 5, 6, 7, 8, 99]) ∧
      (201 % 100 ∈ [1, 2, 3, 4, 5, 6, 7, 8, 99] ∧ 2 ≤ 201 / 10 ^ 2 % 10) ∧
      (2101 % 100 ∈ [1, 2, 3, 4, 5, 6, 7, 8, 99] ∧ 2 ≤ 2101 / 10 ^ 3 % 10 ∧ 2101 / 10 ^ 2 % 10 ≤ 1) ∧
      (91199 % 100 ∈ [1, 2, 3, 4, 5, 6, 7, 8, 99] ∧ 2 ≤ 91199 / 10 ^ 4 % 10 ∧ 91199 / 10 ^ 2 % 10 ≤ 1 ∧
        91199 / 10 ^ 3 % 10 ≤ 1) := by decide
theorem witness_decodeFault_records :
    (record [-1] []).map FaultRecord.cause = some .wordOutOfRange ∧
      (record [100000] []).map FaultRecord.cause = some .wordOutOfRange ∧
      (record [99900] []).map FaultRecord.cause = some (.unknownOpcode 0) ∧
      (record [2101] []).map FaultRecord.cause = some (.badModeDigit 2 2) ∧
      (record [91199] []).map FaultRecord.cause = some (.badModeDigit 3 9) := by decide
/-- FetchPastTheEndFaults: pc = N. -/
theorem witness_fetchEnd : ((launch [1, 0, 0, 0] []).setPc 4).status = .running ∧
    ((launch [1, 0, 0, 0] []).setPc 4).mem.size ≤ ((launch [1, 0, 0, 0] []).setPc 4).pc := by decide
/-- ArityFaultWhenWordsAreMissing: one word short, exactly enough, and HALT in the last word. -/
theorem witness_arity :
    ((launch [1, 5, 6] []).mem.read? 0 = some 1 ∧ decodeHead 1 = .ok ⟨.add, .positional, .positional, .positional⟩ ∧
      (launch [1, 5, 6] []).mem.size - 1 - 0 < Op.add.arity ∧ (launch [1, 5, 6] []).fault = none) ∧
      (Op.add.arity ≤ (launch [1, 0, 0, 0] []).mem.size - 1 - 0 ∧ (launch [1, 0, 0, 0] []).mem.read? 0 = some 1) ∧
      (decodeHead 99 = .ok ⟨.halt, .positional, .positional, .positional⟩ ∧ (launch [99] []).mem.read? 0 = some 99) := by
  decide
/-- AddAndMulStoreTheExactResult, OverflowFaults: the sum at MAX and just above it, and the product likewise; the
destination is address N - 1. -/
theorem witness_addMul : ReadsAs (launch [7, 1] []) (pos 1) 1 ∧ ReadsAs (launch [7, 1] []) (imm 131070) 131070 ∧
    ReadsAs (launch [7, 1] []) (imm 131071) 131071 ∧ (launch [7, 1] []).mem.Valid 1 ∧
    InWord (launch [7, 1] []).cfg.wordBits (1 + 131070) ∧ ¬InWord (launch [7, 1] []).cfg.wordBits (1 + 131071) ∧
    InWord (launch [7, 1] []).cfg.wordBits (1 * 131071) ∧ ¬InWord (launch [7, 1] []).cfg.wordBits (131071 * 131071) :=
  ⟨rfl, rfl, rfl, by decide, by decide, by decide, by decide, by decide⟩
/-- CompareStoresOneOrZero: less, equal and greater, at address 0. -/
theorem witness_compare : ReadsAs (launch [7, -1] []) (pos 1) (-1) ∧ ReadsAs (launch [7, -1] []) (imm 0) 0 ∧
    ReadsAs (launch [7, -1] []) (imm (-1)) (-1) ∧ ReadsAs (launch [7, -1] []) (imm (-2)) (-2) ∧
    (launch [7, -1] []).mem.Valid 0 ∧ (-1 : Word) < 0 ∧ (-1 : Word) = -1 ∧ (-2 : Word) ≤ -1 := 
  ⟨rfl, rfl, rfl, rfl, by decide, by decide, by decide, by decide⟩
/-- ThreeSlotAddressFaults, JumpSlotAddressFaults, OutputAppendsTheSource: addresses N and -1 are outside, N - 1 and 0 are
not. -/
theorem witness_outside : ReadsOutside (launch [7, 1] []) (pos 2) ∧ ReadsOutside (launch [7, 1] []) (pos (-1)) ∧
    ReadsAs (launch [7, 1] []) (pos 1) 1 ∧ ReadsAs (launch [7, 1] []) (pos 0) 7 ∧ ¬(launch [7, 1] []).mem.Valid 2 ∧
    ¬(launch [7, 1] []).mem.Valid (-1) :=
  ⟨⟨rfl, by decide⟩, ⟨rfl, by decide⟩, rfl, rfl, by decide, by decide⟩
/-- InputStoresTheFrontOfTheQueue, InputExhaustedFaults, InputDestinationFaults. -/
theorem witness_input : (launch [3, 1] [8]).mem.Valid 1 ∧ (launch [3, 1] [8]).inq = 8 :: [] ∧ (launch [3, 1] []).inq = [] ∧
    ¬(launch [3, 2] []).mem.Valid 2 := by decide
/-- JumpsFollowTheCondition: a zero and a negative condition, a target of 0, N - 1, N and -1. -/
theorem witness_jump : ReadsAs (launch [5, 0] []) (pos 1) 0 ∧ ReadsAs (launch [5, 0] []) (imm (-1)) (-1) ∧ (-1 : Word) ≠ 0 ∧
    ReadsAs (launch [5, 0] []) (imm 1) 1 ∧ (launch [5, 0] []).mem.Valid 1 ∧ (launch [5, 0] []).mem.Valid 0 ∧
    ReadsAs (launch [5, 0] []) (imm 2) 2 ∧ ¬(launch [5, 0] []).mem.Valid 2 ∧ ¬(launch [5, 0] []).mem.Valid (-1) :=
  ⟨rfl, rfl, by decide, rfl, by decide, by decide, rfl, by decide, by decide⟩
/-- IdleModeDigitsHaveNoEffect and the frames: each shape has a next state, faulted or not. -/
theorem witness_frames :
    exec (.add (imm 1) (imm 2) (imm 0)) (launch [7] []) = .next (((launch [7] []).wr 0 3).advance 3) ∧
      exec (.inp (pos 0) .positional .immediate) (launch [7] [8]) = .next (((launch [7] [8]).wr 0 8).inPop.advance 1) ∧
      exec (.out (pos 0) .positional .immediate) (launch [7] []) = .next (((launch [7] []).outPush 7).advance 1) ∧
      exec (.jt (imm 1) (imm 0) .immediate) (launch [7] []) = .next ((launch [7] []).setPc 0) ∧
      exec (.jf (imm 1) (imm 0) .immediate) (launch [7] []) = .next ((launch [7] []).advance 2) ∧
      exec (.halt .immediate .immediate .immediate) (launch [7] []) = .next (launch [7] []).halt ∧
      exec (.lt (pos 1) (imm 2) (pos 0)) (launch [7] []) =
        .next ((launch [7] []).raise (some 1007) (.badAddress .read (some 1) 1)) :=
  ⟨next_of (by decide), next_of (by decide), next_of (by decide), next_of (by decide), next_of (by decide),
    next_of (by decide), next_of (by decide)⟩
/-- AssemblyMatchesTheEncoding: a statement that assembles, an instruction with no idle digit 1, and one with such a digit
on its dst slot and one beyond its arity. -/
theorem witness_assembly : assembleStmt (.instr .jf [.bracket 15, .hash 14]) = .ok [1006, 15, 14] ∧
    (∀ m ∈ idleDigits (.inp (pos 3) .positional .positional), m = .positional) ∧
    Mode.immediate ∈ idleDigits (.add (pos 1) (pos 2) (imm 3)) ∧
    Mode.immediate ∈ idleDigits (.out (pos 1) .positional .immediate) := by decide

end Sys2Proof.Tests
end

section
/-! The obligations about a run's parameters and its invariant (spec 00_scope.md): what the decoder accepts, what each
operation keeps of the invariant, and what a greater word width changes. -/

namespace Sys2Proof

/-! ### What the decoder accepts (R60, R66, R67) -/

theorem Op.arity_le_three (op : Op) : op.arity ≤ 3 := by
  cases op <;> decide

@[simp] theorem Head.head_instr (h : Head) (r1 r2 r3 : Word) : (h.instr r1 r2 r3).head = h := by
  obtain ⟨op, m1, m2, m3⟩ := h
  cases op <;> rfl

@[simp] theorem Head.op_instr (h : Head) (r1 r2 r3 : Word) : (h.instr r1 r2 r3).op = h.op := by
  obtain ⟨op, m1, m2, m3⟩ := h
  cases op <;> rfl

@[simp] theorem Head.raws_instr (h : Head) (r1 r2 r3 : Word) :
    (h.instr r1 r2 r3).raws = [r1, r2, r3].take h.op.arity := by
  obtain ⟨op, m1, m2, m3⟩ := h
  cases op <;> rfl

/-- Where enough words follow, the decoder's reads never use their default. -/
theorem take_getD_eq_take {n : Nat} {ws : List Word} (h3 : n ≤ 3) (hn : n ≤ ws.length) :
    [ws.getD 0 0, ws.getD 1 0, ws.getD 2 0].take n = ws.take n := by
  match ws, n with
  | _, 0 => rfl
  | _ :: _, 1 => rfl
  | _ :: _ :: _, 2 => rfl
  | _ :: _ :: _ :: _, 3 => rfl

/-- What a list of words that decodes looks like: a legal first word, and after it at least the parameter words, which
are the instruction's (R60, R67). -/
theorem decode_ok_cases {ws rest : List Word} {i : Instr} (h : decode ws = .ok (i, rest)) :
    ∃ w params, ws = w :: params ∧ decodeHead w = .ok i.head ∧ i.op.arity ≤ params.length ∧
      i.raws = params.take i.op.arity ∧ rest = params.drop i.op.arity := by
  cases ws with
  | nil => cases h
  | cons w params =>
    simp only [decode] at h
    cases hd : decodeHead w with
    | error r => simp [hd] at h
    | ok head =>
      by_cases hlen : params.length < head.op.arity
      · simp [hd, hlen] at h
      · simp only [hd, if_neg hlen] at h
        cases h
        have harity : head.op.arity ≤ params.length := Nat.not_lt.mp hlen
        exact ⟨w, params, rfl, by simpa using hd, by simpa using harity,
          by simpa using take_getD_eq_take head.op.arity_le_three harity, by simp⟩

/-- A legal word lies in decode range (R62). -/
theorem inDecodeRange_of_decodeHead {w : Word} {h : Head} (hd : decodeHead w = .ok h) : InDecodeRange w := by
  by_contra hr
  simp [decodeHead, if_neg hr] at hd

theorem Instr.word_inDecodeRange (i : Instr) : InDecodeRange i.word :=
  inDecodeRange_of_decodeHead (decodeHead_word i.head)

namespace Machine

/-! ### The words at pc -/

/-- The whole of a decoded instruction lies below N (R67). -/
theorem decoded_fits {s : State} {i : Instr} {rest : List Word} (h : decode s.fetchWords = .ok (i, rest)) :
    s.pc + 1 + i.op.arity ≤ s.mem.size := by
  obtain ⟨w, params, hf, -, harity, -, -⟩ := decode_ok_cases h
  have hlen := fetchWords_length s
  rw [hf, List.length_cons] at hlen
  omega

/-- Where memory holds words, so do the raw words of the instruction decoded at pc (R66). -/
theorem decoded_wellFormed {s : State} {i : Instr} {rest : List Word} {W : Nat} (hmem : s.mem.InRange W)
    (h : decode s.fetchWords = .ok (i, rest)) : i.WellFormed W := by
  obtain ⟨w, params, hf, -, -, hraws, -⟩ := decode_ok_cases h
  intro r hr
  have hparams : r ∈ params := List.mem_of_mem_take (hraws ▸ hr)
  exact fetchWords_inWord hmem (hf ▸ List.mem_cons_of_mem w hparams)

/-- A rejection of the words at pc is a fault on the first of them, or on no word where there is none (R83). -/
theorem raiseReject_eq_raise {s : State} {r : Reject} (h : decode s.fetchWords = .error r) :
    ∃ c, s.raiseReject r = s.raise s.fetchWords.head? c := by
  cases hf : s.fetchWords with
  | nil =>
    rw [hf] at h
    cases h
    exact ⟨_, rfl⟩
  | cons w params =>
    rw [hf, decode] at h
    cases hd : decodeHead w with
    | error why =>
      simp only [hd] at h
      cases h
      exact ⟨_, rfl⟩
    | ok head =>
      by_cases hlen : params.length < head.op.arity
      · simp only [hd, if_pos hlen] at h
        cases h
        exact ⟨_, rfl⟩
      · simp [hd, hlen] at h

/-! ### The step, read backwards -/

/-- A step with a next state started Running, and either rejected the words at pc or ran the instruction they decode to
(R80 to R82). -/
theorem step_next_cases {s t : State} (h : step s = .next t) :
    s.status = .running ∧
      ((∃ r, decode s.fetchWords = .error r ∧ t = s.raiseReject r) ∨
        ∃ i rest, decode s.fetchWords = .ok (i, rest) ∧ exec i s = .next t) := by
  have hrun := running_of_step h
  refine ⟨hrun, ?_⟩
  rcases step_running hrun with ⟨r, hd, e⟩ | ⟨i, rest, hd, e⟩
  · cases h.symm.trans e
    exact .inl ⟨r, hd, rfl⟩
  · exact .inr ⟨i, rest, hd, e.symm.trans h⟩

/-! ### The width and N (R6, R50) -/

theorem exec_keeps_width_and_size {i : Instr} {s t : State} (h : exec i s = .next t) :
    t.cfg = s.cfg ∧ t.mem.size = s.mem.size := by
  rcases exec_cases i s with ⟨c, e⟩ | ⟨a, v, -, -, -, e⟩ | ⟨d, m2, m3, x, rest, -, -, -, e⟩ |
    ⟨a, m2, m3, x, -, -, e⟩ | ⟨y, -, -, e⟩ | ⟨-, e⟩ | ⟨-, e⟩ <;>
    cases h.symm.trans e <;> simp

/-- Settles O12: a rejection and every instruction keep them. -/
theorem stepKeepsWidthAndSize : Obligations.StepKeepsWidthAndSize := by
  intro s t h
  obtain ⟨-, ⟨r, hd, rfl⟩ | ⟨i, rest, -, he⟩⟩ := step_next_cases h
  · obtain ⟨c, e⟩ := raiseReject_eq_raise hd
    simp [e]
  · exact exec_keeps_width_and_size he

/-- Settles O14: the raw words are among the words fetched, which memory holds. -/
theorem decodedInstructionIsWellFormed : Obligations.DecodedInstructionIsWellFormed :=
  fun _ _ _ hinv hd => decoded_wellFormed hinv.memWords hd

/-! ### What each operation keeps of the invariant -/

theorem wordLimit_mono {W W' : Nat} (h : W ≤ W') : wordLimit W ≤ wordLimit W' := by
  unfold wordLimit
  exact_mod_cast Nat.pow_le_pow_right (by omega) (by omega : W - 1 ≤ W' - 1)

theorem inWord_mono {W W' : Nat} {v : Word} (h : W ≤ W') (hv : InWord W v) : InWord W' v := by
  have := wordLimit_mono h
  obtain ⟨hlo, hhi⟩ := hv
  constructor <;> omega

/-- Every word in decode range is a word of every legal width, which is why R6 asks for 18 bits. -/
theorem inWord_of_inDecodeRange {W : Nat} {v : Word} (hW : minWordBits ≤ W) (hv : InDecodeRange v) : InWord W v := by
  obtain ⟨hlo, hhi⟩ := hv
  have h18 : wordLimit minWordBits = 131072 := by decide
  have hmax : maxInstrWord = 99999 := rfl
  exact inWord_mono hW ⟨by omega, by omega⟩

/-- The value of a source slot is a word, in either mode (R68, R69). -/
theorem ReadsAs.inWord {s : State} {p : Slot} {v : Word} {W : Nat} (h : ReadsAs s p v) (hmem : s.mem.InRange W)
    (hraw : InWord W p.raw) : InWord W v := by
  obtain ⟨m, r⟩ := p
  cases m with
  | immediate =>
    cases h
    exact hraw
  | positional => exact Memory.read?_inWord hmem h

/-- A record's soundness reads only the program counter and the width. -/
theorem RecordSound.of_same {s t : State} {r : FaultRecord} (h : RecordSound s r) (hpc : t.pc = s.pc)
    (hcfg : t.cfg = s.cfg) : RecordSound t r where
  kind := h.kind
  code := h.code
  pc := h.pc.trans hpc.symm
  opcode := h.opcode
  word := hcfg ▸ h.word

namespace State.Inv

/-- Only a Faulted state has a record (R27). -/
theorem fault_eq_none {s : State} (h : s.Inv) (hs : s.status ≠ .faulted) : s.fault = none :=
  Option.not_isSome_iff_eq_none.mp (mt h.faultIff.mp hs)

theorem raise {s : State} (h : s.Inv) {w : Option Word} (c : Cause)
    (hw : ∀ v, w = some v → InWord s.cfg.wordBits v) : (s.raise w c).Inv where
  width := h.width
  canonical := h.canonical
  memWords := h.memWords
  pcBound := h.pcBound
  inqWords := h.inqWords
  outlogWords := h.outlogWords
  faultIff := by simp
  recordSound := by
    rintro r ⟨⟩
    exact ⟨rfl, rfl, rfl, rfl, hw⟩

theorem wr {s : State} (h : s.Inv) (a : Int) {v : Word} (hv : InWord s.cfg.wordBits v) : (s.wr a v).Inv where
  width := h.width
  canonical := Memory.wf_write a v h.canonical
  memWords := Memory.inRange_write a h.memWords hv
  pcBound := by simpa using h.pcBound
  inqWords := h.inqWords
  outlogWords := h.outlogWords
  faultIff := h.faultIff
  recordSound := fun r hr => (h.recordSound r hr).of_same rfl rfl

/-- The program counter of a Faulted state may not move: its record names it. -/
theorem setPc {s : State} (h : s.Inv) (hs : s.status ≠ .faulted) {n : Nat} (hn : n ≤ s.mem.size) :
    (s.setPc n).Inv where
  width := h.width
  canonical := h.canonical
  memWords := h.memWords
  pcBound := hn
  inqWords := h.inqWords
  outlogWords := h.outlogWords
  faultIff := h.faultIff
  recordSound := fun r hr => by simp [h.fault_eq_none hs] at hr

theorem advance {s : State} (h : s.Inv) (hs : s.status ≠ .faulted) {n : Nat} (hn : s.pc + 1 + n ≤ s.mem.size) :
    (s.advance n).Inv :=
  h.setPc hs hn

theorem halt {s : State} (h : s.Inv) (hs : s.status ≠ .faulted) : s.halt.Inv where
  width := h.width
  canonical := h.canonical
  memWords := h.memWords
  pcBound := h.pcBound
  inqWords := h.inqWords
  outlogWords := h.outlogWords
  faultIff := by simp [h.fault_eq_none hs]
  recordSound := fun r hr => by simp [h.fault_eq_none hs] at hr

theorem inPop {s : State} (h : s.Inv) : s.inPop.Inv where
  width := h.width
  canonical := h.canonical
  memWords := h.memWords
  pcBound := h.pcBound
  inqWords := fun x hx => h.inqWords x (List.mem_of_mem_tail hx)
  outlogWords := h.outlogWords
  faultIff := h.faultIff
  recordSound := fun r hr => (h.recordSound r hr).of_same rfl rfl

theorem outPush {s : State} (h : s.Inv) {v : Word} (hv : InWord s.cfg.wordBits v) : (s.outPush v).Inv where
  width := h.width
  canonical := h.canonical
  memWords := h.memWords
  pcBound := h.pcBound
  inqWords := h.inqWords
  outlogWords := fun x hx => by
    rcases List.mem_append.mp hx with hx | hx
    · exact h.outlogWords x hx
    · exact List.mem_singleton.mp hx ▸ hv
  faultIff := h.faultIff
  recordSound := fun r hr => (h.recordSound r hr).of_same rfl rfl

end State.Inv

/-- A well-formed instruction that ends within memory keeps the invariant of a state that is not Faulted (R84). -/
theorem exec_keeps_inv {i : Instr} {s t : State} (hinv : s.Inv) (hs : s.status ≠ .faulted)
    (hwf : i.WellFormed s.cfg.wordBits) (hfits : s.pc + 1 + i.op.arity ≤ s.mem.size) (h : exec i s = .next t) :
    t.Inv := by
  rcases exec_cases i s with ⟨c, e⟩ | ⟨a, v, harity, -, hv, e⟩ | ⟨d, m2, m3, x, rest, rfl, -, hq, e⟩ |
    ⟨a, m2, m3, x, rfl, hx, e⟩ | ⟨y, -, hy, e⟩ | ⟨hop, e⟩ | ⟨-, e⟩ <;> cases h.symm.trans e
  · refine hinv.raise c ?_
    rintro v ⟨⟩
    exact inWord_of_inDecodeRange hinv.width i.word_inDecodeRange
  · exact (hinv.wr a (hv hinv.width)).advance hs (by simpa [harity] using hfits)
  · have hword : InWord s.cfg.wordBits x := hinv.inqWords x (by simp [hq])
    exact (hinv.wr d.raw hword).inPop.advance hs (by simpa [Instr.op, Op.arity] using hfits)
  · have hword : InWord s.cfg.wordBits x := hx.inWord hinv.memWords (hwf a.raw (by simp [Instr.raws]))
    exact (hinv.outPush hword).advance hs hfits
  · exact hinv.setPc hs (by omega)
  · have harity : i.op.arity = 2 := by rcases hop with hop | hop <;> rw [hop] <;> rfl
    exact hinv.advance hs (harity ▸ hfits)
  · exact hinv.halt hs

/-- Settles O11: a rejection raises a fault on a fetched word, and a decoded instruction is well-formed and ends within
memory. -/
theorem stepKeepsInvariant : Obligations.StepKeepsInvariant := by
  intro s t hinv h
  obtain ⟨hrun, ⟨r, hd, rfl⟩ | ⟨i, rest, hd, he⟩⟩ := step_next_cases h
  · obtain ⟨c, e⟩ := raiseReject_eq_raise hd
    rw [e]
    exact hinv.raise c fun v hv => fetchWords_inWord hinv.memWords (List.mem_of_head? hv)
  · exact exec_keeps_inv hinv (by simp [hrun]) (decoded_wellFormed hinv.memWords hd) (decoded_fits hd) he

/-! ### A greater word width (R7, decisions D1 and D2) -/

/-- The same state in words of `W` bits. -/
def State.withWidth (s : State) (W : Nat) : State := { s with cfg := ⟨W⟩ }

/-- The outcome with `f` applied to its next state. -/
def mapNext (f : State → State) : Host.Outcome State Fault Refusal → Host.Outcome State Fault Refusal
  | .next t => .next (f t)
  | .fault r => .fault r
  | .refused r => .refused r

section Width
variable (s : State) (W : Nat)

/-! What reads no width is the same at every width. -/

@[simp] theorem State.withWidth_status : (s.withWidth W).status = s.status := rfl
@[simp] theorem State.withWidth_fetchWords : (s.withWidth W).fetchWords = s.fetchWords := rfl
@[simp] theorem State.withWidth_inHead? : (s.withWidth W).inHead? = s.inHead? := rfl
@[simp] theorem State.withWidth_chkTarget (a : Word) : (s.withWidth W).chkTarget a = s.chkTarget a := rfl
@[simp] theorem resolveSrc_withWidth (k : Nat) (p : Slot) : resolveSrc (s.withWidth W) k p = resolveSrc s k p := rfl
@[simp] theorem resolveDst_withWidth (k : Nat) (p : Slot) : resolveDst (s.withWidth W) k p = resolveDst s k p := rfl
@[simp] theorem resolveTwo_withWidth (a b : Slot) : resolveTwo (s.withWidth W) a b = resolveTwo s a b := rfl
@[simp] theorem resolveThree_withWidth (a b d : Slot) : resolveThree (s.withWidth W) a b d = resolveThree s a b d := rfl

theorem raiseReject_withWidth (r : Reject) : (s.withWidth W).raiseReject r = (s.raiseReject r).withWidth W := by
  cases r <;> rfl

theorem execJump_withWidth (i : Instr) (taken : Word → Bool) (c t : Slot) :
    execJump i taken c t (s.withWidth W) = mapNext (·.withWidth W) (execJump i taken c t s) := by
  simp only [execJump, resolveTwo_withWidth, State.withWidth_chkTarget]
  cases resolveTwo s c t with
  | error e => rfl
  | ok p =>
    cases htaken : taken p.1 with
    | false => simp only [htaken]; rfl
    | true =>
      simp only [htaken]
      cases s.chkTarget p.2 <;> rfl

theorem execInp_withWidth (d : Slot) (m2 m3 : Mode) :
    execInp d m2 m3 (s.withWidth W) = mapNext (·.withWidth W) (execInp d m2 m3 s) := by
  simp only [execInp, resolveDst_withWidth, State.withWidth_inHead?]
  cases resolveDst s 1 d with
  | error c => rfl
  | ok a => cases s.inHead? <;> rfl

theorem execOut_withWidth (a : Slot) (m2 m3 : Mode) :
    execOut a m2 m3 (s.withWidth W) = mapNext (·.withWidth W) (execOut a m2 m3 s) := by
  simp only [execOut, resolveSrc_withWidth]
  cases resolveSrc s 1 a <;> rfl

end Width

/-- The state is Faulted with an ArithmeticOverflowFault (R155). -/
def Overflowed (t : State) : Prop :=
  t.status = .faulted ∧ ∃ r, t.fault = some r ∧ r.kind = .arithmeticOverflowFault

/-- What the outcome `o'` at width `W` owes to the outcome `o` of `s`: it is the same, or `o` overflowed
and `o'` goes on after a four-word instruction. -/
def SameButOverflow (s : State) (W : Nat) (o o' : Host.Outcome State Fault Refusal) : Prop :=
  o' = mapNext (·.withWidth W) o ∨
    (∃ t, o = .next t ∧ Overflowed t) ∧ ∃ u, o' = .next u ∧ u.status = s.status ∧ u.pc = s.pc + 4

/-- The result `e'` is the result `e`, or a value in place of an overflow. -/
def ResultButOverflow (e e' : Except Cause Word) : Prop :=
  e' = e ∨ ∃ c r, e = .error c ∧ c.kind = .arithmeticOverflowFault ∧ e' = .ok r

/-- The overflow check passes at a greater width whatever it passed before (R88). -/
theorem checked_resultButOverflow {W W' : Nat} (h : W ≤ W') (op : AluOp) (a b r : Word) :
    ResultButOverflow (checked W op a b r) (checked W' op a b r) := by
  rcases checked_cases W op a b r with ⟨hr, e⟩ | ⟨-, e⟩
  · exact .inl (by rw [e, checked, if_pos (inWord_mono h hr)])
  · rcases checked_cases W' op a b r with ⟨-, e'⟩ | ⟨-, e'⟩
    · exact .inr ⟨_, r, e, rfl, e'⟩
    · exact .inl (e'.trans e.symm)

theorem execWrite_sameButOverflow {f g : Word → Word → Except Cause Word}
    (h : ∀ x y, ResultButOverflow (f x y) (g x y)) (i : Instr) (a b d : Slot) (s : State) (W : Nat) :
    SameButOverflow s W (execWrite i f a b d s) (execWrite i g a b d (s.withWidth W)) := by
  simp only [execWrite, resolveThree_withWidth]
  cases resolveThree s a b d with
  | error c => exact .inl rfl
  | ok p =>
    rcases h p.1 p.2.1 with e | ⟨c, r, ef, hc, eg⟩
    · refine .inl ?_
      simp only [e]
      cases f p.1 p.2.1 <;> rfl
    · refine .inr ⟨⟨_, by simp only [ef]; rfl, rfl, _, rfl, hc⟩, ?_⟩
      simp only [eg]
      exact ⟨_, rfl, rfl, rfl⟩

/-- Only the ALU reads the width (R87, R88). -/
theorem exec_sameButOverflow (i : Instr) {s : State} {W : Nat} (h : s.cfg.wordBits ≤ W) :
    SameButOverflow s W (exec i s) (exec i (s.withWidth W)) := by
  cases i with
  | add a b d => exact execWrite_sameButOverflow (fun _ _ => checked_resultButOverflow h ..) ..
  | mul a b d => exact execWrite_sameButOverflow (fun _ _ => checked_resultButOverflow h ..) ..
  | lt a b d => exact execWrite_sameButOverflow (f := fun x y => .ok (aluLt x y)) (fun _ _ => .inl rfl) ..
  | eq a b d => exact execWrite_sameButOverflow (f := fun x y => .ok (aluEq x y)) (fun _ _ => .inl rfl) ..
  | inp d m2 m3 => exact .inl (execInp_withWidth ..)
  | out a m2 m3 => exact .inl (execOut_withWidth ..)
  | jt c t m3 => exact .inl (execJump_withWidth ..)
  | jf c t m3 => exact .inl (execJump_withWidth ..)
  | halt m1 m2 m3 => exact .inl rfl

theorem step_sameButOverflow {s : State} {W : Nat} (hrun : s.status = .running) (h : s.cfg.wordBits ≤ W) :
    SameButOverflow s W (step s) (step (s.withWidth W)) := by
  simp only [step, State.withWidth_status, State.withWidth_fetchWords, hrun]
  cases decode s.fetchWords with
  | error r => exact .inl (congrArg _ (raiseReject_withWidth s W r))
  | ok p => exact exec_sameButOverflow p.1 h

/-- Settles O23: a step that did not overflow is the same at the greater width. -/
theorem widerWordsOnlyRemoveOverflow : Obligations.WiderWordsOnlyRemoveOverflow := by
  intro s t W hW h
  have hrun := running_of_step h
  have hwider := step_sameButOverflow hrun hW
  rw [h] at hwider
  obtain hsame | ⟨⟨_, ⟨⟩, hfaulted, r, hr, hkind⟩, u, hu, hustatus, hupc⟩ := hwider
  · exact ⟨fun _ => hsame, fun _ _ _ _ => .inl hsame⟩
  · exact ⟨fun hno => absurd hkind (hno hfaulted r hr), fun _ _ _ _ => .inr ⟨u, hu, hustatus.trans hrun, hupc⟩⟩

end Machine

end Sys2Proof
end

section
/-! The obligations about the state (spec 10_state.md): what a load places and where a run starts, how pc is written, and
what a whole run does to the queue and the log. -/

namespace Sys2Proof

/-! ### The jumps by their opcode (R63) -/

theorem Instr.eq_jt_of_op {i : Instr} (h : i.op = .jt) : ∃ c t m3, i = .jt c t m3 := by
  cases i <;> cases h
  exact ⟨_, _, _, rfl⟩

theorem Instr.eq_jf_of_op {i : Instr} (h : i.op = .jf) : ∃ c t m3, i = .jf c t m3 := by
  cases i <;> cases h
  exact ⟨_, _, _, rfl⟩

namespace Machine

/-! ### Memory as a list of words (R22, R33) -/

/-- The list of a memory's words and its reads agree at every address from 0 up. -/
theorem Memory.words_getElem? (m : Memory) (i : Nat) : m.words[i]? = m.read? (i : Int) := by
  by_cases h : i < m.size
  · rw [Memory.read?_of_valid (by constructor <;> omega), Int.toNat_natCast]
    simp [Memory.words, h]
  · rw [Memory.read?_of_not_valid (by rintro ⟨-, hlt⟩; omega)]
    simp [Memory.words, Nat.le_of_not_lt h]

@[simp] theorem Memory.length_words (m : Memory) : m.words.length = m.size := by simp [Memory.words]

@[simp] theorem Memory.words_ofWords (ws : List Word) : (Memory.ofWords ws).words = ws := by
  apply List.ext_getElem
  · simp
  · intro i hi hi'
    simp [Memory.words, Memory.ofWords, cellAt_cellsOf, hi']

theorem Memory.read?_ofWords (ws : List Word) (i : Nat) : (Memory.ofWords ws).read? (i : Int) = ws[i]? := by
  rw [← Memory.words_getElem?, Memory.words_ofWords]

/-- Reading the words at pc is taking the first four words of memory from there (log entry 9). -/
theorem fetchWords_eq_take_words (s : State) : s.fetchWords = (s.mem.words.drop s.pc).take 4 := by
  apply List.ext_getElem
  · simp [fetchWords_length]
  · intro k hk hk'
    simp [fetchWords_eq, Memory.words]

/-! ### The load (R33 to R37) -/

/-- Settles O3: the loaded memory's list of words is the image, and its reads are that list's. -/
theorem loadPlacesTheImage : Obligations.LoadPlacesTheImage := by
  intro cfg image inputs
  refine ⟨rfl, Memory.read?_ofWords image, fun a ha => ?_, Memory.words_ofWords image, rfl⟩
  exact Memory.read?_of_not_valid fun hvalid => absurd hvalid.1 (Int.not_le.mpr ha)

theorem load_fetchWords (cfg : Config) (image inputs : List Word) :
    (State.load cfg image inputs).fetchWords = image.take 4 := by
  rw [fetchWords_eq_take_words]
  exact congrArg (List.take 4) (Memory.words_ofWords image)

/-- A Running state's step executes the instruction its words at pc decode to (R82). -/
theorem step_of_decode {s : State} {i : Instr} {rest : List Word} (hrun : s.status = .running)
    (hd : decode s.fetchWords = .ok (i, rest)) : step s = exec i s := by
  simp [step, hrun, hd]

/-- Settles O1: a load is Running at pc 0, where it fetches the image's first words. -/
theorem resetStartsRunningAtZero : Obligations.ResetStartsRunningAtZero := by
  refine ⟨⟨rfl, rfl⟩, fun cfg image inputs => ⟨rfl, rfl, load_fetchWords cfg image inputs, fun i rest hd => ?_⟩⟩
  exact step_of_decode rfl ((load_fetchWords cfg image inputs).symm ▸ hd)

/-! ### The program counter (R25, R85) -/

/-- An instruction leaves pc where it is, advances it past its own words, or jumps to a valid address. -/
theorem exec_pc_cases {i : Instr} {s t : State} (h : exec i s = .next t) :
    t.pc = s.pc ∨ t.pc = s.pc + 1 + i.op.arity ∨ ((i.op = .jt ∨ i.op = .jf) ∧ s.mem.Valid (t.pc : Int)) := by
  rcases exec_cases i s with ⟨c, e⟩ | ⟨a, v, harity, -, -, e⟩ | ⟨d, m2, m3, x, rest, rfl, -, -, e⟩ |
    ⟨a, m2, m3, x, rfl, -, e⟩ | ⟨y, hop, hy, e⟩ | ⟨hop, e⟩ | ⟨-, e⟩ <;> cases h.symm.trans e
  · exact .inl rfl
  · exact .inr (.inl (by simp [harity]))
  · exact .inr (.inl rfl)
  · exact .inr (.inl rfl)
  · exact .inr (.inr ⟨hop, by simpa [Int.toNat_of_nonneg hy.1] using hy⟩)
  · have harity : i.op.arity = 2 := by rcases hop with hop | hop <;> rw [hop] <;> rfl
    exact .inr (.inl (by simp [harity]))
  · exact .inl rfl

/-- Settles O19: a rejection is a fault, which leaves pc alone, and so do a faulting instruction and HALT. -/
theorem programCounterWrittenInTwoWays : Obligations.ProgramCounterWrittenInTwoWays := by
  intro s t h hpc
  obtain ⟨-, ⟨r, hd, rfl⟩ | ⟨i, rest, hd, he⟩⟩ := step_next_cases h
  · obtain ⟨c, e⟩ := raiseReject_eq_raise hd
    exact absurd (congrArg State.pc e) hpc
  · refine ⟨i, rest, hd, ?_⟩
    rcases exec_pc_cases he with hsame | hnext | ⟨hop, hvalid⟩
    · exact absurd hsame hpc
    · exact .inl hnext
    · exact .inr ⟨hop.imp Instr.eq_jt_of_op Instr.eq_jf_of_op, hvalid⟩

/-! ### The queue and the log over a run (R28, R29, R90) -/

/-- What every run does, from `s` to a later state `t`: the log grows at its end, the queue shrinks at its front, N and
the width are kept, and so is the invariant. -/
structure RunsTo (s t : State) : Prop where
  outlog : s.outlog <+: t.outlog
  inq : t.inq <:+ s.inq
  size : t.mem.size = s.mem.size
  cfg : t.cfg = s.cfg
  inv : s.Inv → t.Inv

theorem RunsTo.refl (s : State) : RunsTo s s := ⟨List.prefix_rfl, List.suffix_rfl, rfl, rfl, id⟩

theorem RunsTo.trans {s t u : State} (h : RunsTo s t) (h' : RunsTo t u) : RunsTo s u where
  outlog := h.outlog.trans h'.outlog
  inq := h'.inq.trans h.inq
  size := h'.size.trans h.size
  cfg := h'.cfg.trans h.cfg
  inv := h'.inv ∘ h.inv

/-- Only OUT adds to the log and only IN takes from the queue (R56). -/
theorem exec_outlog_inq {i : Instr} {s t : State} (h : exec i s = .next t) :
    s.outlog <+: t.outlog ∧ t.inq <:+ s.inq := by
  rcases exec_cases i s with ⟨c, e⟩ | ⟨a, v, -, -, -, e⟩ | ⟨d, m2, m3, x, rest, -, -, -, e⟩ |
    ⟨a, m2, m3, x, -, -, e⟩ | ⟨y, -, -, e⟩ | ⟨-, e⟩ | ⟨-, e⟩ <;>
    cases h.symm.trans e <;> simp [List.tail_suffix]

theorem step_outlog_inq {s t : State} (h : step s = .next t) : s.outlog <+: t.outlog ∧ t.inq <:+ s.inq := by
  obtain ⟨-, ⟨r, hd, rfl⟩ | ⟨i, rest, -, he⟩⟩ := step_next_cases h
  · obtain ⟨c, e⟩ := raiseReject_eq_raise hd
    simp [e]
  · exact exec_outlog_inq he

theorem runsTo_of_step {s t : State} (h : step s = .next t) : RunsTo s t := by
  obtain ⟨hlog, hinq⟩ := step_outlog_inq h
  obtain ⟨hcfg, hsize⟩ := stepKeepsWidthAndSize s t h
  exact ⟨hlog, hinq, hsize, hcfg, fun hinv => stepKeepsInvariant s t hinv h⟩

/-- A run that has a final state is at it, or takes a step and reaches it from there with less fuel. -/
theorem finalState_cases {n : Nat} {s t : State} (h : finalState n s = some t) :
    (s.status ≠ .running ∧ t = s) ∨ ∃ m u, n = m + 1 ∧ step s = .next u ∧ finalState m u = some t := by
  unfold finalState at h
  cases hs : s.status with
  | halted => exact .inl ⟨by simp, by simpa [hs] using h.symm⟩
  | faulted => exact .inl ⟨by simp, by simpa [hs] using h.symm⟩
  | running =>
    cases n with
    | zero => simp [hs] at h
    | succ m =>
      cases hstep : step s with
      | next u => exact .inr ⟨m, u, rfl, rfl, by simpa [hs, hstep] using h⟩
      | fault r => simp [hs, hstep] at h
      | refused r => simp [hs, hstep] at h

/-- What every step keeps holds at the end of a run when it holds at the start. -/
theorem finalState_keeps {P : State → Prop} (hkeeps : ∀ s t, step s = .next t → P s → P t) {n : Nat} {s t : State}
    (h : finalState n s = some t) (hs : P s) : P t := by
  induction n generalizing s with
  | zero =>
    obtain ⟨-, rfl⟩ | ⟨m, u, ⟨⟩, -⟩ := finalState_cases h
    exact hs
  | succ n ih =>
    obtain ⟨-, rfl⟩ | ⟨m, u, ⟨⟩, hstep, hrest⟩ := finalState_cases h
    · exact hs
    · exact ih hrest (hkeeps s u hstep hs)

theorem runsTo_of_finalState {n : Nat} {s t : State} (h : finalState n s = some t) : RunsTo s t :=
  finalState_keeps (P := RunsTo s) (fun _ _ hstep hrun => hrun.trans (runsTo_of_step hstep)) h (.refl s)

/-- Settles O25: `RunsTo` holds along each step and composes, so it relates the ends of a run. -/
theorem runGrowsOutputAndDrainsInput : Obligations.RunGrowsOutputAndDrainsInput := by
  intro n s t h
  obtain ⟨⟨added, hadded⟩, ⟨taken, htaken⟩, hsize, hcfg, hinv⟩ := runsTo_of_finalState h
  exact ⟨⟨added, hadded.symm⟩, ⟨taken, htaken.symm⟩, hsize, hcfg, hinv⟩

end Machine

end Sys2Proof
end

section
/-! The obligation about the one memory write of an instruction (spec 20_memory.md R43, R52): what a store leaves, and
ADD and MUL, which store an exact result. -/

namespace Sys2Proof.Machine

/-! ### What a store leaves (R43) -/

/-- A state whose memory is that of `s` after one write at a valid address stores that word, whatever else changed. -/
theorem storesWord_of_mem_eq_write {s t : State} {a : Int} {v : Word} (ha : s.mem.Valid a)
    (hmem : t.mem = s.mem.write a v) : StoresWord s t a v where
  stored := by rw [hmem, Memory.read?_write_self v ha]
  others := fun x hx => by rw [hmem, Memory.read?_write_ne s.mem v hx]
  size := by rw [hmem, Memory.write_size]

/-! ### The F3 shape when every check passes (R71, R84) -/

theorem resolveDst_of_valid {s : State} {p : Slot} (k : Nat) (h : s.mem.Valid p.raw) : resolveDst s k p = .ok p.raw :=
  if_pos h

theorem resolveThree_of_reads {s : State} {a b d : Slot} {x y : Word} (hx : ReadsAs s a x) (hy : ReadsAs s b y)
    (hd : s.mem.Valid d.raw) : resolveThree s a b d = .ok (x, y, d.raw) := by
  simp only [resolveThree, resolveTwo, resolveSrc_of_reads _ hx, resolveSrc_of_reads _ hy, resolveDst_of_valid _ hd]

theorem execWrite_of_reads {s : State} {a b d : Slot} {x y r : Word} {f : Word → Word → Except Cause Word} (i : Instr)
    (hx : ReadsAs s a x) (hy : ReadsAs s b y) (hd : s.mem.Valid d.raw) (hf : f x y = .ok r) :
    execWrite i f a b d s = .next ((s.wr d.raw r).advance 3) := by
  simp only [execWrite, resolveThree_of_reads hx hy hd, hf]

/-- The sources are read before the write (R52), so the destination may be a source or the instruction itself. -/
theorem execWrite_stores {s : State} {a b d : Slot} {x y r : Word} {f : Word → Word → Except Cause Word} (i : Instr)
    (hx : ReadsAs s a x) (hy : ReadsAs s b y) (hd : s.mem.Valid d.raw) (hf : f x y = .ok r) :
    ∃ t, execWrite i f a b d s = .next t ∧ StoresWord s t d.raw r ∧ t.pc = s.pc + 4 ∧ t.inq = s.inq ∧
      t.outlog = s.outlog ∧ SameControl s t :=
  ⟨_, execWrite_of_reads i hx hy hd hf, storesWord_of_mem_eq_write hd rfl, rfl, rfl, rfl, ⟨rfl, rfl, rfl⟩⟩

/-! ### ADD and MUL (R87, R88) -/

theorem checked_of_inWord {W : Nat} {r : Word} (op : AluOp) (a b : Word) (h : InWord W r) : checked W op a b r = .ok r :=
  if_pos h

/-- Settles O35: the ALU's exact result is a word, so it passes the check and the shared shape stores it. -/
theorem addAndMulStoreTheExactResult : Obligations.AddAndMulStoreTheExactResult := by
  intro s a b d x y hx hy hd
  constructor
  · intro hsum
    exact execWrite_stores (.add a b d) hx hy hd (checked_of_inWord .add x y hsum)
  · intro hproduct
    exact execWrite_stores (.mul a b d) hx hy hd (checked_of_inWord .mul x y hproduct)

end Sys2Proof.Machine
end

section
/-! The obligations about the encoding (spec 30_encoding.md): the legal instruction words and how every other word is
refused, the faults of a slot out of bounds, OUT, and the mode digits that have no effect. -/

namespace Sys2Proof

/-! ### Opcodes and mode digits (R2, R63 to R65) -/

/-- Settles O30: the table is finite. -/
theorem opcodeMap : Obligations.OpcodeMap := by
  unfold Obligations.OpcodeMap
  decide

/-- Settles O31: each list is closed, so the decoder runs on it. -/
theorem specWordsDecode : Obligations.SpecWordsDecode := by
  unfold Obligations.SpecWordsDecode
  decide

theorem Op.mem_all (op : Op) : op ∈ Op.all := by
  cases op <;> decide

theorem Op.ofCode?_eq_some_iff {n : Nat} {op : Op} : Op.ofCode? n = some op ↔ op.code = n := by
  constructor
  · intro h
    simpa using List.find?_some h
  · rintro rfl
    cases op <;> rfl

theorem Op.ofCode?_eq_none_iff {n : Nat} : Op.ofCode? n = none ↔ n ∉ Op.all.map Op.code := by
  simp [Op.ofCode?, List.find?_eq_none]

theorem Mode.ofDigit?_eq_some_iff {d : Nat} {m : Mode} : Mode.ofDigit? d = some m ↔ m.digit = d := by
  match d with
  | 0 => cases m <;> decide
  | 1 => cases m <;> decide
  | d + 2 => cases m <;> simp [Mode.ofDigit?, Mode.digit]

theorem Mode.exists_digit_eq {d : Nat} (h : d ≤ 1) : ∃ m : Mode, m.digit = d := by
  match d with
  | 0 => exact ⟨.positional, rfl⟩
  | 1 => exact ⟨.immediate, rfl⟩

theorem Mode.mem_all (m : Mode) : m ∈ [Mode.positional, Mode.immediate] := by
  cases m <;> decide

theorem Mode.digit_le_one (m : Mode) : m.digit ≤ 1 := by
  cases m <;> decide

/-! ### The mode digits of a word (R61, R65) -/

theorem decodeMode_eq_ok_iff {n k : Nat} {m : Mode} : decodeMode n k = .ok m ↔ m.digit = digit n (k + 1) := by
  rw [← Mode.ofDigit?_eq_some_iff, decodeMode]
  cases Mode.ofDigit? (digit n (k + 1)) <;> simp

theorem decodeMode_of_le_one {n k : Nat} (h : digit n (k + 1) ≤ 1) : ∃ m, decodeMode n k = .ok m := by
  obtain ⟨m, hm⟩ := Mode.exists_digit_eq h
  exact ⟨m, decodeMode_eq_ok_iff.mpr hm⟩

theorem decodeMode_of_two_le {n k : Nat} (h : 2 ≤ digit n (k + 1)) :
    decodeMode n k = .error (.badModeDigit k (digit n (k + 1))) := by
  have hnone : Mode.ofDigit? (digit n (k + 1)) = none := by
    refine Option.eq_none_iff_forall_ne_some.mpr fun m hm => ?_
    have := m.digit_le_one
    have := Mode.ofDigit?_eq_some_iff.mp hm
    omega
  rw [decodeMode, hnone]

/-- A head's mode digits are the word's decimal digits at the places 100, 1000 and 10000. -/
theorem decodeModes_ok {op : Op} {n : Nat} {h : Head} (hd : decodeModes op n = .ok h) :
    h.op = op ∧ h.m1.digit = digit n 2 ∧ h.m2.digit = digit n 3 ∧ h.m3.digit = digit n 4 := by
  unfold decodeModes at hd
  cases h1 : decodeMode n 1 with
  | error r => simp [h1] at hd
  | ok m1 =>
    cases h2 : decodeMode n 2 with
    | error r => simp [h1, h2] at hd
    | ok m2 =>
      cases h3 : decodeMode n 3 with
      | error r => simp [h1, h2, h3] at hd
      | ok m3 =>
        simp only [h1, h2, h3] at hd
        cases hd
        exact ⟨rfl, decodeMode_eq_ok_iff.mp h1, decodeMode_eq_ok_iff.mp h2, decodeMode_eq_ok_iff.mp h3⟩

/-- The first mode digit of 2 to 9, in slot order, is the one rejected. -/
theorem decodeModes_of_two_le (op : Op) {n k : Nat} (hk : k ∈ [1, 2, 3]) (hbad : 2 ≤ digit n (k + 1))
    (hgood : ∀ j, 1 ≤ j → j < k → digit n (j + 1) ≤ 1) :
    decodeModes op n = .error (.badModeDigit k (digit n (k + 1))) := by
  have good (j : Nat) (h1 : 1 ≤ j) (hj : j < k) : ∃ m, decodeMode n j = .ok m := decodeMode_of_le_one (hgood j h1 hj)
  have bad := decodeMode_of_two_le hbad
  obtain rfl | rfl | rfl : k = 1 ∨ k = 2 ∨ k = 3 := by simpa using hk
  · simp only [decodeModes, bad]
  · obtain ⟨m1, h1⟩ := good 1 (by decide) (by decide)
    simp only [decodeModes, h1, bad]
  · obtain ⟨m1, h1⟩ := good 1 (by decide) (by decide)
    obtain ⟨m2, h2⟩ := good 2 (by decide) (by decide)
    simp only [decodeModes, h1, h2, bad]

/-! ### The instruction word (R62, R74 to R76) -/

theorem decodeHead_of_not_inDecodeRange {w : Word} (h : ¬InDecodeRange w) : decodeHead w = .error .wordOutOfRange :=
  if_neg h

theorem inDecodeRange_natCast {n : Nat} (h : n ≤ 99999) : InDecodeRange (n : Int) :=
  ⟨by omega, by unfold maxInstrWord; omega⟩

theorem decodeHead_of_unknown {n : Nat} (hn : n ≤ 99999) (hop : n % 100 ∉ Op.all.map Op.code) :
    decodeHead (n : Int) = .error (.unknownOpcode (n % 100)) := by
  simp only [decodeHead, if_pos (inDecodeRange_natCast hn), Int.toNat_natCast, Op.ofCode?_eq_none_iff.mpr hop]

theorem decodeHead_of_code {n : Nat} {op : Op} (hn : n ≤ 99999) (hop : op.code = n % 100) :
    decodeHead (n : Int) = decodeModes op n := by
  simp only [decodeHead, if_pos (inDecodeRange_natCast hn), Int.toNat_natCast, Op.ofCode?_eq_some_iff.mpr hop]

/-- A number of at most five digits is its opcode and its mode digits at their places (R61). -/
theorem opcode_add_digits {n : Nat} (hn : n ≤ 99999) :
    n % 100 + 100 * digit n 2 + 1000 * digit n 3 + 10000 * digit n 4 = n := by
  have h3 : n / 10 ^ 3 = n / 10 ^ 2 / 10 := (Nat.div_div_eq_div_mul n (10 ^ 2) 10).symm
  have h4 : n / 10 ^ 4 = n / 10 ^ 3 / 10 := (Nat.div_div_eq_div_mul n (10 ^ 3) 10).symm
  simp only [digit, h4, h3]
  omega

/-- The legal words are the words of the heads, and each decodes to its head only (R75, R76). -/
theorem decodeHead_eq_ok_iff {w : Word} {h : Head} : decodeHead w = .ok h ↔ h.word = w := by
  constructor
  · intro hd
    obtain ⟨hlo, hhi⟩ := inDecodeRange_of_decodeHead hd
    obtain ⟨n, rfl⟩ := Int.eq_ofNat_of_zero_le hlo
    have hn : n ≤ 99999 := by unfold maxInstrWord at hhi; omega
    cases hop : Op.ofCode? (n % 100) with
    | none => simp [decodeHead_of_unknown hn (Op.ofCode?_eq_none_iff.mp hop)] at hd
    | some op =>
      have hcode := Op.ofCode?_eq_some_iff.mp hop
      rw [decodeHead_of_code hn hcode] at hd
      obtain ⟨rfl, h1, h2, h3⟩ := decodeModes_ok hd
      simp only [Head.word, hcode, h1, h2, h3, opcode_add_digits hn]
  · rintro rfl
    exact decodeHead_word h

theorem Head.word_injective : Function.Injective Head.word := fun h h' heq =>
  Except.ok.inj ((decodeHead_word h).symm.trans (heq ▸ decodeHead_word h'))

theorem Head.mem_legalHeads (h : Head) : h ∈ legalHeads := by
  obtain ⟨op, m1, m2, m3⟩ := h
  simp only [legalHeads, List.mem_flatMap, List.mem_map]
  exact ⟨op, op.mem_all, m3, m3.mem_all, m2, m2.mem_all, m1, m1.mem_all, rfl⟩

theorem mem_legalWords_iff {w : Word} : w ∈ legalHeads.map Head.word ↔ ∃ h : Head, h.word = w := by
  simp [Head.mem_legalHeads]

/-- R76's sum, over the opcodes and digits written as numbers. -/
theorem exists_head_word_iff {w : Word} :
    (∃ h : Head, h.word = w) ↔
      ∃ op ∈ Op.all.map fun op => (op.code : Int),
        ∃ m1 ∈ [Mode.positional, Mode.immediate].map fun m => (m.digit : Int),
          ∃ m2 ∈ [Mode.positional, Mode.immediate].map fun m => (m.digit : Int),
            ∃ m3 ∈ [Mode.positional, Mode.immediate].map fun m => (m.digit : Int),
              w = op + 100 * m1 + 1000 * m2 + 10000 * m3 := by
  have hmem (m : Mode) := List.mem_map_of_mem (f := fun m => (m.digit : Int)) m.mem_all
  constructor
  · rintro ⟨⟨op, m1, m2, m3⟩, rfl⟩
    exact ⟨_, List.mem_map_of_mem op.mem_all, _, hmem m1, _, hmem m2, _, hmem m3, by simp [Head.word]⟩
  · rintro ⟨_, hop, _, h1, _, h2, _, h3, rfl⟩
    obtain ⟨op, -, rfl⟩ := List.mem_map.mp hop
    obtain ⟨m1, -, rfl⟩ := List.mem_map.mp h1
    obtain ⟨m2, -, rfl⟩ := List.mem_map.mp h2
    obtain ⟨m3, -, rfl⟩ := List.mem_map.mp h3
    exact ⟨⟨op, m1, m2, m3⟩, by simp [Head.word]⟩

namespace Machine

/-! ### The step on an illegal word (R82, R151) -/

theorem headCause_kind (why : HeadReject) : (headCause why).kind = .decodeFault := by
  cases why <;> rfl

theorem step_of_illegal {s : State} {w : Word} {why : HeadReject} (hrun : s.status = .running)
    (hread : s.mem.read? (s.pc : Int) = some w) (hd : decodeHead w = .error why) :
    step s = .next (s.raise (some w) (headCause why)) := by
  obtain ⟨rest, hf, -⟩ := fetchWords_of_read hread
  simp [step, hrun, hf, decode, hd]

theorem faults_step_of_illegal {s : State} {w : Word} {why : HeadReject} (hrun : s.status = .running)
    (hread : s.mem.read? (s.pc : Int) = some w) (hd : decodeHead w = .error why) :
    Faults (step s) s (some w) (headCause why) :=
  ⟨_, step_of_illegal hrun hread hd, takesFault_raise s _ _⟩

/-- Settles O29: the legal words are the words of the 72 heads, which the decoder takes apart again, so no two are the
same; it rejects every other word, and the step faults on it. -/
theorem legalWordsAreSeventyTwo : Obligations.LegalWordsAreSeventyTwo := by
  have hnodup : legalHeads.Nodup := by decide
  refine ⟨rfl, hnodup.map Head.word_injective, fun w => mem_legalWords_iff.trans exists_head_word_iff,
    fun w => ?_, fun s w hrun hread hillegal => ?_⟩
  · simp only [decodeHead_eq_ok_iff, mem_legalWords_iff]
  · cases hd : decodeHead w with
    | error why => exact ⟨_, faults_step_of_illegal hrun hread hd, headCause_kind why⟩
    | ok h => exact absurd (mem_legalWords_iff.mpr ⟨h, decodeHead_eq_ok_iff.mp hd⟩) hillegal

/-- Settles O32: in each clause the earlier checks of `decodeHead` pass and the next one rejects the word. -/
theorem decodeFaultCauses : Obligations.DecodeFaultCauses := by
  intro s w hrun hread
  refine ⟨fun hrange => ?_, ?_, ?_⟩
  · have hout : ¬InDecodeRange w := fun ⟨hlo, hhi⟩ => hrange.elim (not_lt_of_ge hlo) (not_lt_of_ge hhi)
    exact ⟨_, step_of_illegal hrun hread (decodeHead_of_not_inDecodeRange hout), takesFault_raise s _ _,
      _, rfl, rfl, rfl, if_neg hout⟩
  · rintro n rfl hn hop
    exact faults_step_of_illegal hrun hread (decodeHead_of_unknown hn hop)
  · rintro n k rfl hn hop hk hbad hgood
    obtain ⟨op, -, hcode⟩ : ∃ op ∈ Op.all, op.code = n % 100 := List.mem_map.mp hop
    exact faults_step_of_illegal hrun hread
      ((decodeHead_of_code hn hcode).trans (decodeModes_of_two_le op hk hbad hgood))

/-! ### The slots of the two shared shapes (R68, R70, R71) -/

theorem resolveDst_of_not_valid {s : State} {p : Slot} (k : Nat) (h : ¬s.mem.Valid p.raw) :
    resolveDst s k p = .error (.badAddress .write (some k) p.raw) :=
  if_neg h

theorem resolveTwo_of_reads {s : State} {a b : Slot} {x y : Word} (hx : ReadsAs s a x) (hy : ReadsAs s b y) :
    resolveTwo s a b = .ok (x, y) := by
  simp only [resolveTwo, resolveSrc_of_reads _ hx, resolveSrc_of_reads _ hy]

theorem resolveTwo_of_outside_first {s : State} {a : Slot} (b : Slot) (h : ReadsOutside s a) :
    resolveTwo s a b = .error (.badAddress .read (some 1) a.raw) := by
  simp only [resolveTwo, resolveSrc_of_outside _ h]

theorem resolveTwo_of_outside_second {s : State} {a b : Slot} {x : Word} (hx : ReadsAs s a x)
    (h : ReadsOutside s b) : resolveTwo s a b = .error (.badAddress .read (some 2) b.raw) := by
  simp only [resolveTwo, resolveSrc_of_reads _ hx, resolveSrc_of_outside _ h]

theorem resolveThree_of_resolveTwo_error {s : State} {a b : Slot} {c : Cause} (d : Slot)
    (h : resolveTwo s a b = .error c) : resolveThree s a b d = .error c := by
  simp only [resolveThree, h]

theorem resolveThree_of_not_valid {s : State} {a b d : Slot} {x y : Word} (hx : ReadsAs s a x) (hy : ReadsAs s b y)
    (h : ¬s.mem.Valid d.raw) : resolveThree s a b d = .error (.badAddress .write (some 3) d.raw) := by
  simp only [resolveThree, resolveTwo_of_reads hx hy, resolveDst_of_not_valid _ h]

theorem faults_execWrite_of_slots {s : State} {a b d : Slot} {c : Cause} (i : Instr)
    (f : Word → Word → Except Cause Word) (h : resolveThree s a b d = .error c) :
    Faults (execWrite i f a b d s) s (some i.word) c := by
  simpa only [execWrite, h] using faults_faultOutcome i s c

theorem faults_execJump_of_slots {s : State} {c t : Slot} {e : Cause} (i : Instr) (taken : Word → Bool)
    (h : resolveTwo s c t = .error e) : Faults (execJump i taken c t s) s (some i.word) e := by
  simpa only [execJump, h] using faults_faultOutcome i s e

/-- ADD, MUL, LT and EQ are the F3 shape, each with its own ALU function. -/
theorem exec_eq_execWrite (s : State) {mk : Slot → Slot → Slot → Instr}
    (hmk : mk ∈ [Instr.add, Instr.mul, Instr.lt, Instr.eq]) :
    ∃ f, ∀ a b d, exec (mk a b d) s = execWrite (mk a b d) f a b d s := by
  obtain rfl | rfl | rfl | rfl : mk = .add ∨ mk = .mul ∨ mk = .lt ∨ mk = .eq := by simpa using hmk
  · exact ⟨_, fun _ _ _ => rfl⟩
  · exact ⟨_, fun _ _ _ => rfl⟩
  · exact ⟨fun x y => .ok (aluLt x y), fun _ _ _ => rfl⟩
  · exact ⟨fun x y => .ok (aluEq x y), fun _ _ _ => rfl⟩

/-- JT and JF are the F2 shape, each with its own test. -/
theorem exec_eq_execJump (s : State) {mk : Slot → Slot → Mode → Instr} (hmk : mk ∈ [Instr.jt, Instr.jf]) :
    ∃ taken, ∀ c t m3, exec (mk c t m3) s = execJump (mk c t m3) taken c t s := by
  obtain rfl | rfl : mk = .jt ∨ mk = .jf := by simpa using hmk
  · exact ⟨_, fun _ _ _ => rfl⟩
  · exact ⟨fun x => !aluNz x, fun _ _ _ => rfl⟩

/-- Settles O38: the resolver fails at the first such slot, before any result is computed. -/
theorem threeSlotAddressFaults : Obligations.ThreeSlotAddressFaults := by
  intro s a b d mk hmk
  obtain ⟨f, hexec⟩ := exec_eq_execWrite s hmk
  rw [hexec]
  refine ⟨fun ha => ?_, fun x hx hb => ?_, fun x y hx hy hd => ?_⟩ <;> apply faults_execWrite_of_slots
  · exact resolveThree_of_resolveTwo_error d (resolveTwo_of_outside_first b ha)
  · exact resolveThree_of_resolveTwo_error d (resolveTwo_of_outside_second hx hb)
  · exact resolveThree_of_not_valid hx hy hd

/-- Settles O44: both slots are resolved before the test of the condition. -/
theorem jumpSlotAddressFaults : Obligations.JumpSlotAddressFaults := by
  intro s c d m3 mk hmk
  obtain ⟨taken, hexec⟩ := exec_eq_execJump s hmk
  rw [hexec]
  refine ⟨fun hc => ?_, fun x hx hd => ?_⟩ <;> apply faults_execJump_of_slots
  · exact resolveTwo_of_outside_first d hc
  · exact resolveTwo_of_outside_second hx hd

/-! ### IN and OUT (R110, R111) -/

theorem execInp_of_cons {s : State} {d : Slot} {x : Word} {rest : List Word} (m2 m3 : Mode) (hd : s.mem.Valid d.raw)
    (hq : s.inq = x :: rest) : execInp d m2 m3 s = .next ((s.wr d.raw x).inPop.advance 1) := by
  simp [execInp, resolveDst_of_valid _ hd, State.inHead?, hq]

theorem execOut_of_reads {s : State} {a : Slot} {x : Word} (m2 m3 : Mode) (hx : ReadsAs s a x) :
    execOut a m2 m3 s = .next ((s.outPush x).advance 1) := by
  simp only [execOut, resolveSrc_of_reads _ hx]

/-- Settles O41: the destination is checked before the queue is looked at. -/
theorem inputDestinationFaults : Obligations.InputDestinationFaults := by
  intro s d m2 m3 hd
  simpa only [exec, execInp, resolveDst_of_not_valid _ hd] using faults_faultOutcome (.inp d m2 m3) s _

/-- Settles O42: the source resolves to the value appended, or to the fault. -/
theorem outputAppendsTheSource : Obligations.OutputAppendsTheSource := by
  intro s a m2 m3
  refine ⟨fun x hx => ?_, fun ha => ?_⟩
  · exact ⟨_, execOut_of_reads m2 m3 hx, rfl, by simp [State.outreg], rfl, rfl, rfl, ⟨rfl, rfl, rfl⟩⟩
  · simpa only [exec, execOut, resolveSrc_of_outside _ ha] using faults_faultOutcome (.out a m2 m3) s _

/-! ### Mode digits without effect (R70, R73)

An instruction's word, which holds every digit, is used only for the record of a fault. So an outcome that is no fault
depends on the slots the shape resolves, and on the destination's raw word alone. -/

theorem next_raise_ne {s t : State} (ht : t.status ≠ .faulted) (w : Option Word) (c : Cause) :
    (.next (s.raise w c) : Host.Outcome State Fault Refusal) ≠ .next t := by
  rintro ⟨⟩
  exact ht rfl

theorem chkTarget_of_valid {s : State} {a : Word} (h : s.mem.Valid a) : s.chkTarget a = .ok a.toNat :=
  if_pos h

theorem execJump_of_taken {s : State} {c t : Slot} {x y : Word} {taken : Word → Bool} (i : Instr)
    (hx : ReadsAs s c x) (hy : ReadsAs s t y) (htaken : taken x = true) (hvalid : s.mem.Valid y) :
    execJump i taken c t s = .next (s.setPc y.toNat) := by
  simp [execJump, resolveTwo_of_reads hx hy, htaken, chkTarget_of_valid hvalid]

theorem execJump_of_not_taken {s : State} {c t : Slot} {x y : Word} {taken : Word → Bool} (i : Instr)
    (hx : ReadsAs s c x) (hy : ReadsAs s t y) (htaken : taken x = false) :
    execJump i taken c t s = .next (s.advance 2) := by
  simp [execJump, resolveTwo_of_reads hx hy, htaken]

theorem execWrite_same_of_not_faulted {s t : State} {a b d d' : Slot} {f : Word → Word → Except Cause Word}
    {i : Instr} (j : Instr) (ht : t.status ≠ .faulted) (hraw : d'.raw = d.raw)
    (h : execWrite i f a b d s = .next t) : execWrite j f a b d' s = .next t := by
  rcases execWrite_cases i f a b d s with ⟨c, -, e⟩ | ⟨x, y, hx, hy, hd, ⟨c, -, e⟩ | ⟨r, hr, e⟩⟩ <;> rw [e] at h
  · exact absurd h (next_raise_ne ht _ c)
  · exact absurd h (next_raise_ne ht _ c)
  · rw [← h, ← hraw]
    exact execWrite_of_reads j hx hy (hraw ▸ hd) hr

theorem execJump_same_of_not_faulted {s u : State} {c t : Slot} {taken : Word → Bool} {i : Instr} (j : Instr)
    (hu : u.status ≠ .faulted) (h : execJump i taken c t s = .next u) : execJump j taken c t s = .next u := by
  rcases execJump_cases i taken c t s with ⟨_, -, e⟩ |
    ⟨x, y, hx, hy, ⟨htaken, hvalid, e⟩ | ⟨-, -, e⟩ | ⟨htaken, e⟩⟩ <;> rw [e] at h
  · exact absurd h (next_raise_ne hu _ _)
  · exact (execJump_of_taken j hx hy htaken hvalid).trans h
  · exact absurd h (next_raise_ne hu _ _)
  · exact (execJump_of_not_taken j hx hy htaken).trans h

theorem execInp_same_of_not_faulted {s t : State} {d d' : Slot} {m2 m3 : Mode} (n2 n3 : Mode)
    (ht : t.status ≠ .faulted) (hraw : d'.raw = d.raw) (h : execInp d m2 m3 s = .next t) :
    execInp d' n2 n3 s = .next t := by
  rcases execInp_cases d m2 m3 s with ⟨-, e⟩ | ⟨-, -, e⟩ | ⟨x, rest, hd, hq, e⟩ <;> rw [e] at h
  · exact absurd h (next_raise_ne ht _ _)
  · exact absurd h (next_raise_ne ht _ _)
  · rw [← h, ← hraw]
    exact execInp_of_cons n2 n3 (hraw ▸ hd) hq

theorem execOut_same_of_not_faulted {s t : State} {a : Slot} {m2 m3 : Mode} (n2 n3 : Mode)
    (ht : t.status ≠ .faulted) (h : execOut a m2 m3 s = .next t) : execOut a n2 n3 s = .next t := by
  rcases execOut_cases a m2 m3 s with ⟨-, e⟩ | ⟨x, hx, e⟩ <;> rw [e] at h
  · exact absurd h (next_raise_ne ht _ _)
  · exact (execOut_of_reads n2 n3 hx).trans h

/-- Settles O46: each shape's outcome, when it is no fault, is the same for both instructions; HALT reads no digit. -/
theorem idleModeDigitsHaveNoEffect : Obligations.IdleModeDigitsHaveNoEffect := by
  intro s t m1 m2 m3 n1 n2 n3 r a b ht
  refine ⟨fun mk hmk => ?_, execInp_same_of_not_faulted n2 n3 ht rfl, execOut_same_of_not_faulted n2 n3 ht,
    fun mk hmk => ?_, id⟩
  · obtain ⟨f, hexec⟩ := exec_eq_execWrite s hmk
    rw [hexec, hexec]
    exact execWrite_same_of_not_faulted _ ht rfl
  · obtain ⟨taken, hexec⟩ := exec_eq_execJump s hmk
    rw [hexec, hexec]
    exact execJump_same_of_not_faulted _ ht

end Machine

end Sys2Proof
end

section
/-! The obligations about the engine cycle (spec 40_engine_cycle.md): when a step is defined and how it ends, what it
reads at pc, what a fault writes, the results of LT and EQ, and the frame of every instruction. -/

namespace Sys2Proof

/-! ### Instructions by their row of the table (R63) -/

theorem Instr.eq_halt_of_op {i : Instr} (h : i.op = .halt) : ∃ m1 m2 m3, i = .halt m1 m2 m3 := by
  cases i <;> cases h
  exact ⟨_, _, _, rfl⟩

/-- Every row with three slots stores: its third slot is a write target. -/
theorem Op.writeTargets_ne_nil_of_arity {op : Op} (h : op.arity = 3) : op.writeTargets ≠ [] := by
  cases op <;> cases h <;> decide

@[simp] theorem Instr.length_raws (i : Instr) : i.raws.length = i.op.arity := by
  cases i <;> rfl

@[simp] theorem Instr.op_head (i : Instr) : i.head.op = i.op := by
  cases i <;> rfl

theorem Instr.length_encode_le (i : Instr) : (encode i).length ≤ 4 := by
  have := i.op.arity_le_three
  simp only [encode, List.length_cons, Instr.length_raws]
  omega

/-! ### The words of an encoding decode (R76) -/

/-- A legal word with enough words after it decodes (R60, R75). -/
theorem decode_of_decodeHead {w : Word} {ws : List Word} {h : Head} (hd : decodeHead w = .ok h)
    (hlen : h.op.arity ≤ ws.length) :
    decode (w :: ws) = .ok (h.instr (ws.getD 0 0) (ws.getD 1 0) (ws.getD 2 0), ws.drop h.op.arity) := by
  simp only [decode, hd, if_neg (Nat.not_lt.mpr hlen)]

/-- An instruction is its head with its own raw words, whatever words follow them. -/
theorem Instr.head_instr_raws (i : Instr) (rest : List Word) :
    i.head.instr ((i.raws ++ rest).getD 0 0) ((i.raws ++ rest).getD 1 0) ((i.raws ++ rest).getD 2 0) = i := by
  cases i <;> rfl

theorem decode_encode_append (i : Instr) (rest : List Word) : decode (encode i ++ rest) = .ok (i, rest) := by
  have hdrop : (i.raws ++ rest).drop i.head.op.arity = rest := List.drop_left' (by simp)
  have hdecode := decode_of_decodeHead (decodeHead_word i.head) (ws := i.raws ++ rest) (by simp)
  rwa [i.head_instr_raws, hdrop] at hdecode

namespace Machine

/-! ### The words at pc (R60, R82) -/

/-- The first fetched word is what memory reads at pc; there is none where nothing does. -/
theorem fetchWords_head? (s : State) : s.fetchWords.head? = s.mem.read? (s.pc : Int) :=
  List.head?_eq_getElem?.trans (fetchWords_getElem? s (by decide))

/-- The word an instruction is decoded from is its own encoding (R76), so a fault of stage R or E names it rightly
(log entry 7). -/
theorem read?_pc_of_decode {s : State} {i : Instr} {rest : List Word} (h : decode s.fetchWords = .ok (i, rest)) :
    s.mem.read? (s.pc : Int) = some i.word := by
  obtain ⟨w, params, hf, hd, -, -, -⟩ := decode_ok_cases h
  exact (fetchWords_cons hf).trans (congrArg some (decodeHead_eq_ok_iff.mp hd).symm)

/-- An instruction's words in memory at pc are the first words fetched. -/
theorem encode_prefix_fetchWords {s : State} {i : Instr}
    (h : ∀ (k : Nat) (w : Word), (encode i)[k]? = some w → s.mem.read? ((s.pc + k : Nat) : Int) = some w) :
    encode i <+: s.fetchWords := by
  refine List.prefix_iff_getElem?.mpr fun k hk => ?_
  rw [fetchWords_getElem? s (Nat.lt_of_lt_of_le hk i.length_encode_le)]
  exact h k _ (List.getElem?_eq_getElem hk)

/-- Settles O16: the step's own equation. -/
theorem stepRunsDecodedInstruction : Obligations.StepRunsDecodedInstruction :=
  fun _ _ _ hrun hd => step_of_decode hrun hd

/-- Settles O17: the fetched words begin with the encoding, which decodes to the instruction. -/
theorem stepRunsEncodedInstruction : Obligations.StepRunsEncodedInstruction := by
  intro s i hrun hwords
  obtain ⟨rest, hfetch⟩ := encode_prefix_fetchWords hwords
  exact step_of_decode hrun (hfetch ▸ decode_encode_append i rest)

/-- Settles O33: no word is fetched there, which is the decoder's first rejection. -/
theorem fetchPastTheEndFaults : Obligations.FetchPastTheEndFaults := by
  intro s hrun hpc
  have hnil := (fetchWords_eq_nil_iff s).mpr hpc
  have hstep : step s = .next (s.raise none (.badAddress .fetch none (s.pc : Int))) := by
    simp [step, hrun, hnil, decode]
  exact ⟨_, hstep, takesFault_raise s _ _⟩

/-! ### How a step ends (R80, R83) -/

/-- An instruction keeps the status, halts, or takes a fault on its own word. -/
theorem exec_status_cases {i : Instr} {s t : State} (h : exec i s = .next t) :
    t.status = s.status ∨ (i.op = .halt ∧ t.status = .halted) ∨ ∃ c, t = s.raise (some i.word) c := by
  rcases exec_cases i s with ⟨c, e⟩ | ⟨a, v, -, -, -, e⟩ | ⟨d, m2, m3, x, rest, -, -, -, e⟩ |
    ⟨a, m2, m3, x, -, -, e⟩ | ⟨y, -, -, e⟩ | ⟨-, e⟩ | ⟨hop, e⟩ <;> cases h.symm.trans e
  · exact .inr (.inr ⟨c, rfl⟩)
  · exact .inl rfl
  · exact .inl rfl
  · exact .inl rfl
  · exact .inl rfl
  · exact .inl rfl
  · exact .inr (.inl ⟨hop, rfl⟩)

/-- A step ends Running, Halted from HALT, or with a fault taken on what memory reads at pc. -/
theorem step_status_cases {s t : State} (h : step s = .next t) :
    t.status = .running ∨
      (t.status = .halted ∧ ∃ m1 m2 m3 rest, decode s.fetchWords = .ok (.halt m1 m2 m3, rest)) ∨
      ∃ c, t = s.raise (s.mem.read? (s.pc : Int)) c := by
  obtain ⟨hrun, ⟨r, hd, rfl⟩ | ⟨i, rest, hd, he⟩⟩ := step_next_cases h
  · exact .inr (.inr (fetchWords_head? s ▸ raiseReject_eq_raise hd))
  · rcases exec_status_cases he with hsame | ⟨hop, hhalted⟩ | hfault
    · exact .inl (hsame.trans hrun)
    · obtain ⟨m1, m2, m3, rfl⟩ := Instr.eq_halt_of_op hop
      exact .inr (.inl ⟨hhalted, m1, m2, m3, rest, hd⟩)
    · exact .inr (.inr (read?_pc_of_decode hd ▸ hfault))

theorem step_answers {s : State} (hrun : s.status = .running) : ∃ t, step s = .next t := by
  rcases step_running hrun with ⟨r, -, e⟩ | ⟨i, rest, -, e⟩
  · exact ⟨_, e⟩
  · exact (exec_answers i s).imp fun t ht => e.trans ht

/-- Settles O15: a Running state has a step, and the three ways it ends are those of `step_status_cases`. -/
theorem stepOnlyFromRunning : Obligations.StepOnlyFromRunning := by
  intro s
  refine ⟨fun hrun => ?_, fun hstopped t h => hstopped (running_of_step h)⟩
  obtain ⟨t, h⟩ := step_answers hrun
  refine ⟨t, h, (step_status_cases h).imp_right (.imp_right ?_)⟩
  rintro ⟨c, rfl⟩
  exact ⟨rfl, rfl⟩

/-! ### What a fault writes (R27, R83) -/

theorem opcodeOf_of_inDecodeRange {w : Word} (h : InDecodeRange w) : opcodeOf (some w) = some (w.toNat % 100) :=
  if_pos h

theorem opcodeOf_of_not_inDecodeRange {w : Word} (h : ¬InDecodeRange w) : opcodeOf (some w) = none :=
  if_neg h

theorem not_inDecodeRange {w : Word} (h : w < 0 ∨ 99999 < w) : ¬InDecodeRange w :=
  fun ⟨hlo, hhi⟩ => h.elim (not_lt_of_ge hlo) (not_lt_of_ge hhi)

/-- Settles O18: such a step has taken a fault on what memory reads at pc, so its record is `faultRecord` and the rest
of the state is as `State.raise` leaves it. -/
theorem faultWritesTheRecordOnly : Obligations.FaultWritesTheRecordOnly := by
  intro s t h hfaulted
  obtain ⟨c, rfl⟩ : ∃ c, t = s.raise (s.mem.read? (s.pc : Int)) c := by
    rcases step_status_cases h with hrunning | ⟨hhalted, -⟩ | hfault
    · simp [hrunning] at hfaulted
    · simp [hhalted] at hfaulted
    · exact hfault
  have hstuck : ∀ u, step (s.raise (s.mem.read? (s.pc : Int)) c) ≠ .next u := fun u hu => nomatch running_of_step hu
  refine ⟨⟨_, rfl, rfl, rfl, rfl, rfl, fun w hw hlo hhi => ?_, fun w hw hout => ?_, fun hw => ?_⟩,
    rfl, rfl, rfl, rfl, rfl, hstuck⟩
  · exact (congrArg opcodeOf hw).trans (opcodeOf_of_inDecodeRange ⟨hlo, hhi⟩)
  · exact (congrArg opcodeOf hw).trans (opcodeOf_of_not_inDecodeRange (not_inDecodeRange hout))
  · exact congrArg opcodeOf hw

/-! ### LT and EQ (R87, R130, R131) -/

/-- Settles O37: the comparison's result is stored by the shared shape, and it is 1 or 0 by the test it makes. -/
theorem compareStoresOneOrZero : Obligations.CompareStoresOneOrZero := by
  intro s a b d x y hx hy hd
  constructor
  · obtain ⟨t, he, hstores, hrest⟩ := execWrite_stores (f := fun x y => .ok (aluLt x y)) (.lt a b d) hx hy hd rfl
    refine ⟨t, he, fun hlt => ?_, fun hle => ?_, hrest⟩
    · rwa [aluLt, if_pos hlt] at hstores
    · rwa [aluLt, if_neg (not_lt_of_ge hle)] at hstores
  · obtain ⟨t, he, hstores, hrest⟩ := execWrite_stores (f := fun x y => .ok (aluEq x y)) (.eq a b d) hx hy hd rfl
    refine ⟨t, he, fun heq => ?_, fun hne => ?_, hrest⟩
    · rwa [aluEq, if_pos heq] at hstores
    · rwa [aluEq, if_neg hne] at hstores

/-! ### Frames (R43, R46, R56, R84) -/

/-- A write at a resolved destination leaves the reading of every address that is not the destination. -/
theorem read?_write_of_not_dst {s : State} {d : Slot} {k : Nat} {x : Int} (v : Word) (hd : s.mem.Valid d.raw)
    (hx : ∀ adr, resolveDst s k d = .ok adr → x ≠ adr) : (s.mem.write d.raw v).read? x = s.mem.read? x :=
  Memory.read?_write_ne s.mem v (hx d.raw (resolveDst_of_valid k hd))

/-- The F3 shape takes a fault, or stores one word at its destination and advances. -/
theorem execWrite_next {i : Instr} {f : Word → Word → Except Cause Word} {a b d : Slot} {s t : State}
    (h : execWrite i f a b d s = .next t) :
    (∃ c, t = s.raise (some i.word) c) ∨ ∃ r, s.mem.Valid d.raw ∧ t = (s.wr d.raw r).advance 3 := by
  rcases execWrite_cases i f a b d s with ⟨c, -, e⟩ | ⟨x, y, -, -, hd, ⟨c, -, e⟩ | ⟨r, -, e⟩⟩ <;>
    cases h.symm.trans e
  · exact .inl ⟨c, rfl⟩
  · exact .inl ⟨c, rfl⟩
  · exact .inr ⟨r, hd, rfl⟩

/-- Settles O47: the four are the F3 shape, whose one write is at the resolved destination. -/
theorem frameOfStoringInstructions : Obligations.FrameOfStoringInstructions := by
  intro s t a b d mk hmk h
  obtain ⟨f, hexec⟩ := exec_eq_execWrite s hmk
  rw [hexec] at h
  obtain ⟨c, rfl⟩ | ⟨r, hd, rfl⟩ := execWrite_next h
  · exact ⟨rfl, rfl, rfl, rfl, fun _ _ => rfl, .inr ⟨rfl, rfl, rfl⟩⟩
  · exact ⟨rfl, rfl, rfl, Memory.write_size .., fun x hx => read?_write_of_not_dst r hd hx, .inl ⟨rfl, rfl, rfl⟩⟩

/-- Settles O48: both faults leave the queue, and the commit writes its front element to the destination. -/
theorem frameOfInput : Obligations.FrameOfInput := by
  intro s t d m2 m3 h
  rcases execInp_cases d m2 m3 s with ⟨-, e⟩ | ⟨-, -, e⟩ | ⟨v, rest, hd, hq, e⟩ <;> cases h.symm.trans e
  · exact ⟨rfl, rfl, rfl, fun _ _ => rfl, .inr ⟨rfl, rfl, rfl, rfl⟩⟩
  · exact ⟨rfl, rfl, rfl, fun _ _ => rfl, .inr ⟨rfl, rfl, rfl, rfl⟩⟩
  · exact ⟨rfl, rfl, Memory.write_size .., fun x hx => read?_write_of_not_dst v hd hx,
      .inl ⟨rfl, rfl, rfl, rfl, by simp [hq]⟩⟩

theorem exec_of_op_halt {i : Instr} (h : i.op = .halt) (s : State) : exec i s = .next s.halt := by
  obtain ⟨m1, m2, m3, rfl⟩ := Instr.eq_halt_of_op h
  rfl

/-- An instruction without a write target takes a fault, appends one output, sets only pc, or halts. -/
theorem exec_next_of_no_writeTargets {i : Instr} {s t : State} (hi : i.op.writeTargets = [])
    (h : exec i s = .next t) :
    (∃ c, t = s.raise (some i.word) c) ∨ (∃ x, i.op = .out ∧ t = (s.outPush x).advance 1) ∨
      (∃ n, (i.op = .jt ∨ i.op = .jf) ∧ t = s.setPc n) ∨ (i.op = .halt ∧ t = s.halt) := by
  rcases exec_cases i s with ⟨c, e⟩ | ⟨a, v, harity, -, -, e⟩ | ⟨d, m2, m3, x, rest, rfl, -, -, e⟩ |
    ⟨a, m2, m3, x, rfl, -, e⟩ | ⟨y, hop, -, e⟩ | ⟨hop, e⟩ | ⟨hop, e⟩ <;> cases h.symm.trans e
  · exact .inl ⟨c, rfl⟩
  · exact absurd hi (Op.writeTargets_ne_nil_of_arity harity)
  · cases hi
  · exact .inr (.inl ⟨x, rfl, rfl⟩)
  · exact .inr (.inr (.inl ⟨_, hop, rfl⟩))
  · exact .inr (.inr (.inl ⟨_, hop, rfl⟩))
  · exact .inr (.inr (.inr ⟨hop, rfl⟩))

/-- Settles O49: none of the four has a write target; only OUT's completion touches the log, and only a fault the
record. -/
theorem frameOfInstructionsThatStoreNothing : Obligations.FrameOfInstructionsThatStoreNothing := by
  intro s t a b m1 m2 m3 i hi h
  have hnone : i.op.writeTargets = [] := by
    obtain rfl | rfl | rfl | rfl : i = .out a m2 m3 ∨ i = .jt a b m3 ∨ i = .jf a b m3 ∨ i = .halt m1 m2 m3 := by
      simpa using hi
    all_goals rfl
  have hhalt : i.op = .halt → t.pc = s.pc ∧ t.status = .halted ∧ t.fault = s.fault := by
    intro hop
    cases h.symm.trans (exec_of_op_halt hop s)
    exact ⟨rfl, rfl, rfl⟩
  have hlogSame (e : t.outlog = s.outlog) : ∃ added, t.outlog = s.outlog ++ added ∧ added.length ≤ 1 :=
    ⟨[], by simp [e], by simp⟩
  obtain ⟨c, rfl⟩ | ⟨x, hop, rfl⟩ | ⟨n, -, rfl⟩ | ⟨-, rfl⟩ := exec_next_of_no_writeTargets hnone h
  · exact ⟨rfl, fun _ => rfl, rfl, rfl, fun _ => rfl, fun _ => hlogSame rfl, .inr ⟨rfl, rfl, rfl⟩, hhalt⟩
  · exact ⟨rfl, fun _ => rfl, rfl, rfl, fun hne => absurd hop hne, fun _ => ⟨[x], rfl, Nat.le_refl 1⟩, .inl rfl, hhalt⟩
  · exact ⟨rfl, fun _ => rfl, rfl, rfl, fun _ => rfl, fun _ => hlogSame rfl, .inl rfl, hhalt⟩
  · exact ⟨rfl, fun _ => rfl, rfl, rfl, fun _ => rfl, fun _ => hlogSame rfl, .inl rfl, hhalt⟩

end Machine

end Sys2Proof
end

section
/-! The obligations about the faults (spec 60_exceptions.md): the noun/verb load's HostWrite, ArityFault, the overflow of
ADD and MUL, and IN with an empty queue. -/

namespace Sys2Proof.Machine

/-! ### The noun/verb load (R152, R185) -/

/-- The addresses of a load are those of its image (R22). -/
theorem load_valid_iff {cfg : Config} {image inputs : List Word} {a : Nat} :
    (State.load cfg image inputs).mem.Valid (a : Int) ↔ a < image.length := by
  simp [Memory.Valid, State.load]

theorem loadNounVerb_of_three_le {image : List Word} (cfg : Config) (noun verb : Word) (h : 3 ≤ image.length) :
    State.loadNounVerb cfg image noun verb = .ok (((State.load cfg image []).wr 1 noun).wr 2 verb) := by
  have h1 : (State.load cfg image []).mem.Valid 1 := (load_valid_iff (a := 1)).mpr (by omega)
  have h2 : (State.load cfg image []).mem.Valid 2 := (load_valid_iff (a := 2)).mpr (by omega)
  simp only [State.loadNounVerb, if_pos h1, if_pos h2]

theorem loadNounVerb_of_length_two {image : List Word} (cfg : Config) (noun verb : Word) (h : image.length = 2) :
    State.loadNounVerb cfg image noun verb = .error (hostWriteFault 2) := by
  have h1 : (State.load cfg image []).mem.Valid 1 := (load_valid_iff (a := 1)).mpr (by omega)
  have h2 : ¬(State.load cfg image []).mem.Valid 2 := mt (load_valid_iff (a := 2)).mp (by omega)
  simp only [State.loadNounVerb, if_pos h1, if_neg h2]

theorem loadNounVerb_of_length_one {image : List Word} (cfg : Config) (noun verb : Word) (h : image.length = 1) :
    State.loadNounVerb cfg image noun verb = .error (hostWriteFault 1) := by
  have h1 : ¬(State.load cfg image []).mem.Valid 1 := mt (load_valid_iff (a := 1)).mp (by omega)
  simp only [State.loadNounVerb, if_neg h1]

/-- Settles O4: the load is two writes at different valid addresses, or the record of the first address that is not
valid. -/
theorem nounVerbLoad : Obligations.NounVerbLoad := by
  intro cfg image noun verb
  refine ⟨fun h => ?_, fun h => ?_, fun h => ?_⟩
  · have hnoun : StoresWord (State.load cfg image []) ((State.load cfg image []).wr 1 noun) 1 noun :=
      storesWord_of_mem_eq_write ((load_valid_iff (a := 1)).mpr (by omega)) rfl
    have hvalid : ((State.load cfg image []).wr 1 noun).mem.Valid 2 := by
      simpa [Memory.Valid] using (load_valid_iff (a := 2)).mpr h
    have hverb := storesWord_of_mem_eq_write (t := ((State.load cfg image []).wr 1 noun).wr 2 verb) hvalid rfl
    exact ⟨_, loadNounVerb_of_three_le cfg noun verb h, (hverb.others 1 (by decide)).trans hnoun.stored, hverb.stored,
      fun a h1 h2 => (hverb.others a h2).trans (hnoun.others a h1), hverb.size.trans hnoun.size,
      rfl, rfl, rfl, rfl, rfl, rfl⟩
  · exact ⟨_, loadNounVerb_of_length_two cfg noun verb h, rfl, rfl, rfl, rfl, rfl, rfl⟩
  · exact ⟨_, loadNounVerb_of_length_one cfg noun verb h, rfl, rfl, rfl, rfl, rfl, rfl⟩

/-! ### Stage A on a legal word (R67, R82, R153) -/

section LegalWord
variable {s : State} {w : Word} {h : Head} (hrun : s.status = .running)
  (hread : s.mem.read? (s.pc : Int) = some w) (hd : decodeHead w = .ok h)
include hrun hread hd

/-- Where fewer words than the arity follow a legal word, the step stops at stage A. -/
theorem step_of_missing_words (hmissing : s.mem.size - 1 - s.pc < h.op.arity) :
    step s = .next (s.raise (some w) (.missingWords h.op.arity (s.mem.size - 1 - s.pc))) := by
  obtain ⟨rest, hf, hlen⟩ := fetchWords_of_read hread
  have hcount : rest.length = s.mem.size - 1 - s.pc := by
    have := h.op.arity_le_three
    omega
  simp [step, hrun, hf, decode, hd, hcount, hmissing]

/-- Where enough words follow a legal word, the step executes an instruction of its opcode. -/
theorem step_of_enough_words (henough : h.op.arity ≤ s.mem.size - 1 - s.pc) :
    ∃ i : Instr, i.op = h.op ∧ step s = exec i s := by
  obtain ⟨rest, hf, hlen⟩ := fetchWords_of_read hread
  have hcount : h.op.arity ≤ rest.length := by
    have := h.op.arity_le_three
    omega
  exact ⟨_, h.op_instr _ _ _, step_of_decode hrun (hf ▸ decode_of_decodeHead hd hcount)⟩

end LegalWord

/-! ### The faults of stages R and E are no ArityFault (R150, R157) -/

theorem resolveTwo_error_kind {s : State} {a b : Slot} {c : Cause} (h : resolveTwo s a b = .error c) :
    c.kind = .addressFault := by
  rcases resolveTwo_cases s a b with ⟨x, y, -, -, e⟩ | ⟨-, e⟩ | ⟨x, -, -, e⟩ <;> cases h.symm.trans e
  · rfl
  · rfl

theorem resolveThree_error_kind {s : State} {a b d : Slot} {c : Cause} (h : resolveThree s a b d = .error c) :
    c.kind = .addressFault := by
  rcases resolveThree_cases s a b d with ⟨x, y, -, -, -, e⟩ | ⟨c', e, hslot⟩ <;> cases h.symm.trans e
  obtain ⟨-, rfl⟩ | ⟨x, -, -, rfl⟩ | ⟨x, y, -, -, -, rfl⟩ := hslot
  · rfl
  · rfl
  · rfl

theorem checked_error_kind {W : Nat} {op : AluOp} {a b r : Word} {c : Cause} (h : checked W op a b r = .error c) :
    c.kind = .arithmeticOverflowFault := by
  rcases checked_cases W op a b r with ⟨-, e⟩ | ⟨-, e⟩ <;> cases h.symm.trans e
  rfl

/-- The outcome is a next state, and that state has no ArityFault record. -/
def NextWithoutArityFault (o : Host.Outcome State Fault Refusal) : Prop :=
  ∃ t, o = .next t ∧ ∀ r, t.fault = some r → r.kind ≠ .arityFault

theorem nextWithoutArityFault_raise (s : State) (w : Option Word) {c : Cause} (hc : c.kind ≠ .arityFault) :
    NextWithoutArityFault (.next (s.raise w c)) := by
  refine ⟨_, rfl, ?_⟩
  rintro r ⟨⟩
  exact hc

theorem nextWithoutArityFault_of_fault_eq_none {t : State} (ht : t.fault = none) :
    NextWithoutArityFault (.next t) :=
  ⟨t, rfl, fun r hr => by simp [ht] at hr⟩

section NoRecord
variable {s : State} (hs : s.fault = none)
include hs

theorem execWrite_nextWithoutArityFault {f : Word → Word → Except Cause Word}
    (hf : ∀ x y c, f x y = .error c → c.kind = .arithmeticOverflowFault) (i : Instr) (a b d : Slot) :
    NextWithoutArityFault (execWrite i f a b d s) := by
  rcases execWrite_cases i f a b d s with ⟨c, hc, e⟩ | ⟨x, y, -, -, -, ⟨c, hc, e⟩ | ⟨r, -, e⟩⟩ <;> rw [e]
  · exact nextWithoutArityFault_raise s _ (by simp [resolveThree_error_kind hc])
  · exact nextWithoutArityFault_raise s _ (by simp [hf x y c hc])
  · exact nextWithoutArityFault_of_fault_eq_none hs

theorem execJump_nextWithoutArityFault (i : Instr) (taken : Word → Bool) (c t : Slot) :
    NextWithoutArityFault (execJump i taken c t s) := by
  rcases execJump_cases i taken c t s with ⟨e', hc, e⟩ |
    ⟨x, y, -, -, ⟨-, -, e⟩ | ⟨-, -, e⟩ | ⟨-, e⟩⟩ <;> rw [e]
  · exact nextWithoutArityFault_raise s _ (by simp [resolveTwo_error_kind hc])
  · exact nextWithoutArityFault_of_fault_eq_none hs
  · exact nextWithoutArityFault_raise s _ nofun
  · exact nextWithoutArityFault_of_fault_eq_none hs

theorem execInp_nextWithoutArityFault (d : Slot) (m2 m3 : Mode) : NextWithoutArityFault (execInp d m2 m3 s) := by
  rcases execInp_cases d m2 m3 s with ⟨-, e⟩ | ⟨-, -, e⟩ | ⟨x, rest, -, -, e⟩ <;> rw [e]
  · exact nextWithoutArityFault_raise s _ nofun
  · exact nextWithoutArityFault_raise s _ nofun
  · exact nextWithoutArityFault_of_fault_eq_none hs

theorem execOut_nextWithoutArityFault (a : Slot) (m2 m3 : Mode) : NextWithoutArityFault (execOut a m2 m3 s) := by
  rcases execOut_cases a m2 m3 s with ⟨-, e⟩ | ⟨x, -, e⟩ <;> rw [e]
  · exact nextWithoutArityFault_raise s _ nofun
  · exact nextWithoutArityFault_of_fault_eq_none hs

/-- An instruction that has been read whole raises no ArityFault. -/
theorem exec_nextWithoutArityFault (i : Instr) : NextWithoutArityFault (exec i s) := by
  cases i with
  | add a b d => exact execWrite_nextWithoutArityFault hs (fun _ _ _ => checked_error_kind) ..
  | mul a b d => exact execWrite_nextWithoutArityFault hs (fun _ _ _ => checked_error_kind) ..
  | lt a b d => exact execWrite_nextWithoutArityFault hs (f := fun x y => .ok (aluLt x y)) nofun ..
  | eq a b d => exact execWrite_nextWithoutArityFault hs (f := fun x y => .ok (aluEq x y)) nofun ..
  | inp d m2 m3 => exact execInp_nextWithoutArityFault hs d m2 m3
  | out a m2 m3 => exact execOut_nextWithoutArityFault hs a m2 m3
  | jt c t m3 => exact execJump_nextWithoutArityFault hs ..
  | jf c t m3 => exact execJump_nextWithoutArityFault hs ..
  | halt m1 m2 m3 => exact nextWithoutArityFault_of_fault_eq_none hs

end NoRecord

/-- Settles O34: stage A compares the arity with the words that follow; past it no instruction raises ArityFault, and
HALT, of arity 0, always passes it. -/
theorem arityFaultWhenWordsAreMissing : Obligations.ArityFaultWhenWordsAreMissing := by
  intro s w h hrun hnone hread hd
  refine ⟨fun hmissing => ?_, fun henough => ?_, fun hhalt => ?_⟩
  · exact ⟨_, step_of_missing_words hrun hread hd hmissing, takesFault_raise s _ _⟩
  · obtain ⟨i, -, hstep⟩ := step_of_enough_words hrun hread hd henough
    exact hstep ▸ exec_nextWithoutArityFault hnone i
  · have harity : h.op.arity = 0 := congrArg Op.arity hhalt
    obtain ⟨i, hop, hstep⟩ := step_of_enough_words hrun hread hd (harity ▸ Nat.zero_le _)
    exact ⟨_, hstep.trans (exec_of_op_halt (hop.trans hhalt) s), rfl, hnone⟩

/-! ### The faults of stage E (R154, R155) -/

theorem checked_of_not_inWord {W : Nat} {r : Word} (op : AluOp) (a b : Word) (h : ¬InWord W r) :
    checked W op a b r = .error (.overflow op a b) :=
  if_neg h

/-- With every slot resolved, the F3 shape's fault is that of its result (R157). -/
theorem faults_execWrite_of_result {s : State} {a b d : Slot} {x y : Word} {c : Cause}
    {f : Word → Word → Except Cause Word} (i : Instr) (hx : ReadsAs s a x) (hy : ReadsAs s b y)
    (hd : s.mem.Valid d.raw) (hf : f x y = .error c) : Faults (execWrite i f a b d s) s (some i.word) c := by
  simpa only [execWrite, resolveThree_of_reads hx hy hd, hf] using faults_faultOutcome i s c

/-- Settles O36: the slots resolve, so the fault is that of the range check on the exact result. -/
theorem overflowFaults : Obligations.OverflowFaults := by
  intro s a b d x y hx hy hd
  refine ⟨fun hsum => ?_, fun hproduct => ?_, rfl, rfl⟩
  · exact faults_execWrite_of_result (.add a b d) hx hy hd (checked_of_not_inWord .add x y hsum)
  · exact faults_execWrite_of_result (.mul a b d) hx hy hd (checked_of_not_inWord .mul x y hproduct)

theorem execInp_of_nil {s : State} {d : Slot} (m2 m3 : Mode) (hd : s.mem.Valid d.raw) (hq : s.inq = []) :
    execInp d m2 m3 s = faultOutcome (.inp d m2 m3) s .inputExhausted := by
  simp [execInp, resolveDst_of_valid _ hd, State.inHead?, hq]

/-- Settles O40: the destination check passes and the queue has no front element. -/
theorem inputExhaustedFaults : Obligations.InputExhaustedFaults := by
  intro s d m2 m3 hd hq
  have hexec : exec (.inp d m2 m3) s = faultOutcome (.inp d m2 m3) s .inputExhausted := execInp_of_nil m2 m3 hd hq
  exact ⟨hexec ▸ faults_faultOutcome (.inp d m2 m3) s _, rfl, rfl⟩

end Sys2Proof.Machine
end

section
/-! The obligations about the encoding read backwards and the assembly statements (spec 30_encoding.md): an instruction
and its words determine each other, and assembling, printing and listing agree with that. -/

namespace Sys2Proof

/-! ### The encoding and the decoder are inverse (R75, R76) -/

/-- Settles O27: the instruction word decodes to the instruction's head, and the raw words follow it. -/
theorem decodeEncodeRoundTrip : Obligations.DecodeEncodeRoundTrip :=
  decode_encode_append

/-- Settles O28: the first word is that of the decoded head, and the raw words are the ones right after it. -/
theorem decodedWordsAreTheEncoding : Obligations.DecodedWordsAreTheEncoding := by
  intro ws i rest h
  obtain ⟨w, params, rfl, hd, -, hraws, rfl⟩ := decode_ok_cases h
  have hword : i.word = w := decodeHead_eq_ok_iff.mp hd
  simp [encode, hword, hraws]

theorem encode_injective : Function.Injective encode := fun i j h => by
  have hi := decode_encode_append i []
  rw [h, decode_encode_append j []] at hi
  cases hi
  rfl

/-! ### Slots (R60, R66) -/

@[simp] theorem Slot.mk_mode_raw (p : Slot) : (⟨p.mode, p.raw⟩ : Slot) = p := rfl

theorem Slot.positional_eq_iff (p : Slot) : (⟨.positional, p.raw⟩ : Slot) = p ↔ p.mode = .positional := by
  obtain ⟨m, r⟩ := p
  simp [eq_comm]

namespace Machine

/-! ### Operands and slots (R77) -/

@[simp] theorem slot_slotOperand (p : Slot) : (slotOperand p).slot = p := by
  obtain ⟨m, r⟩ := p
  cases m <;> rfl

@[simp] theorem slotOperand_slot (o : Operand) : slotOperand o.slot = o := by
  cases o <;> rfl

@[simp] theorem slot_bracket (a : Int) : (Operand.bracket a).slot = ⟨.positional, a⟩ := rfl

@[simp] theorem Operand.fits_bracket (op : Op) (k : Nat) (a : Int) : (Operand.bracket a).fits op k = true := rfl

theorem Operand.fits_of_notMem {op : Op} {k : Nat} (o : Operand) (hk : k ∉ op.writeTargets) : o.fits op k = true := by
  cases o <;> simp [Operand.fits, hk]

/-- Only the form `[a]` fits a write-target slot. -/
theorem Operand.bracket_of_fits {op : Op} {k : Nat} {o : Operand} (hk : k ∈ op.writeTargets)
    (h : o.fits op k = true) : Operand.bracket o.slot.raw = o := by
  cases o with
  | bracket a => rfl
  | hash v => simp [Operand.fits, hk] at h

@[simp] theorem misfit?_nil (op : Op) (k : Nat) : misfit? op k [] = none := rfl

@[simp] theorem misfit?_cons_eq_none_iff {op : Op} {k : Nat} {o : Operand} {os : List Operand} :
    misfit? op k (o :: os) = none ↔ o.fits op k = true ∧ misfit? op (k + 1) os = none := by
  cases h : o.fits op k <;> simp [misfit?, h]

/-! ### Assembling a statement (R76, R77) -/

theorem assembleStmt_instr_eq_ok_iff {op : Op} {os : List Operand} {ws : List Word} :
    assembleStmt (.instr op os) = .ok ws ↔
      os.length = op.arity ∧ misfit? op 1 os = none ∧ encode (instrOfSlots op (os.map Operand.slot)) = ws := by
  by_cases hlen : os.length = op.arity
  · cases hfit : misfit? op 1 os <;> simp [assembleStmt, hlen, hfit]
  · simp [assembleStmt, hlen]

theorem op_instrOfSlots (op : Op) (slots : List Slot) : (instrOfSlots op slots).op = op :=
  Head.op_instr _ _ _ _

/-- Operands that fit are printed back: a write-target slot has the form `[a]` it is always printed in. -/
theorem instrOperands_instrOfSlots {op : Op} {os : List Operand} (hlen : os.length = op.arity)
    (hfit : misfit? op 1 os = none) : instrOperands (instrOfSlots op (os.map Operand.slot)) = os := by
  match op, os, hlen with
  | .add, [a, b, d], _ | .mul, [a, b, d], _ | .lt, [a, b, d], _ | .eq, [a, b, d], _ =>
    simp only [misfit?_cons_eq_none_iff] at hfit
    obtain ⟨-, -, hd, -⟩ := hfit
    simp [instrOfSlots, Head.instr, instrOperands, Operand.bracket_of_fits (by decide) hd]
  | .inp, [d], _ =>
    simp only [misfit?_cons_eq_none_iff] at hfit
    obtain ⟨hd, -⟩ := hfit
    simp [instrOfSlots, Head.instr, instrOperands, Operand.bracket_of_fits (by decide) hd]
  | .out, [a], _ => simp [instrOfSlots, Head.instr, instrOperands]
  | .jt, [c, t], _ | .jf, [c, t], _ => simp [instrOfSlots, Head.instr, instrOperands]
  | .halt, [], _ => rfl

/-! ### Printing an instruction (R77) -/

/-- The instruction a printed statement stands for: its idle mode digits are lost. -/
def printedInstr (i : Instr) : Instr := instrOfSlots i.op ((instrOperands i).map Operand.slot)

theorem length_instrOperands (i : Instr) : (instrOperands i).length = i.op.arity := by
  cases i <;> rfl

theorem misfit?_instrOperands (i : Instr) : misfit? i.op 1 (instrOperands i) = none := by
  cases i <;> simp [instrOperands, Instr.op, Op.writeTargets, Operand.fits_of_notMem]

theorem assembleStmt_disassemble (i : Instr) : assembleStmt (disassemble i) = .ok (encode (printedInstr i)) :=
  assembleStmt_instr_eq_ok_iff.mpr ⟨length_instrOperands i, misfit?_instrOperands i, rfl⟩

/-- Nothing is lost exactly where every idle digit is 0. -/
theorem printedInstr_eq_self_iff (i : Instr) : printedInstr i = i ↔ ∀ m ∈ idleDigits i, m = .positional := by
  cases i <;>
    simp [printedInstr, instrOfSlots, Instr.op, instrOperands, Head.instr, idleDigits, Slot.positional_eq_iff,
      eq_comm (a := Mode.positional)]

theorem assembles_to_encoding_iff (i : Instr) :
    assembleStmt (disassemble i) = .ok (encode i) ↔ ∀ m ∈ idleDigits i, m = .positional := by
  rw [assembleStmt_disassemble, Except.ok.injEq, encode_injective.eq_iff, printedInstr_eq_self_iff]

/-- Settles O50: a statement stands for one instruction, which it prints, and a listing holds what is printed exactly
where no idle digit is lost. -/
theorem assemblyMatchesTheEncoding : Obligations.AssemblyMatchesTheEncoding := by
  refine ⟨fun op os ws h => ?_, fun i => ⟨assembles_to_encoding_iff i, fun hidle => ?_, fun hidle => ?_, ?_⟩⟩
  · obtain ⟨hlen, hfit, rfl⟩ := assembleStmt_instr_eq_ok_iff.mp h
    refine ⟨instrOfSlots op (os.map Operand.slot), ?_, op_instrOfSlots op _, rfl, ?_⟩
    · simpa using decode_encode_append (instrOfSlots op (os.map Operand.slot)) []
    · rw [disassemble, op_instrOfSlots, instrOperands_instrOfSlots hlen hfit]
  · exact if_pos ((assembles_to_encoding_iff i).mpr hidle)
  · exact if_neg fun hsame => nomatch (assembles_to_encoding_iff i).mp hsame _ hidle
  · unfold listingStmt
    split
    · assumption
    · rfl

end Machine

end Sys2Proof
end

section
/-! The obligations about memory as data and the states a run starts from (spec 10_state.md, 70_reset_and_hazards.md
sections 1 and 2): the canonical form, reset, and the loads. -/

namespace Sys2Proof.Machine

/-! ### The canonical form (R22, log entry 2) -/

theorem cellsRise_iff_pairwise (l : List Cell) : cellsRise l = true ↔ l.Pairwise fun c d => c.1 < d.1 := by
  induction l with
  | nil => simp [cellsRise]
  | cons c rest ih => rw [cellsRise_cons, List.pairwise_cons, ih]

/-- A cell of a rising list is what its address reads as, and an address that no cell lists reads as the unlisted
value. -/
theorem mem_cells_iff {l : List Cell} (hrise : cellsRise l = true) (hlisted : ∀ c ∈ l, c.2 ≠ Memory.unlisted)
    (c : Cell) : c ∈ l ↔ cellAt l c.1 = c.2 ∧ c.2 ≠ Memory.unlisted := by
  induction l with
  | nil => simp [cellAt, eq_comm]
  | cons d rest ih =>
    obtain ⟨a, v⟩ := c
    obtain ⟨b, u⟩ := d
    obtain ⟨hlt, hrest⟩ := (cellsRise_cons _ _).mp hrise
    have ih := ih hrest fun c hc => hlisted c (List.mem_cons_of_mem _ hc)
    by_cases hab : a = b
    · subst hab
      have hu : u ≠ Memory.unlisted := hlisted (a, u) List.mem_cons_self
      have hnotin : (a, v) ∉ rest := fun hmem => Nat.lt_irrefl a (hlt _ hmem)
      simp only [List.mem_cons, hnotin, or_false, cellAt, if_pos, Prod.mk.injEq, true_and]
      exact ⟨fun h => ⟨h.symm, h ▸ hu⟩, fun h => h.1.symm⟩
    · simpa [cellAt, hab] using ih

/-- Rising lists of the same cells are the same list. -/
theorem cells_eq_of_mem_iff {l₁ l₂ : List Cell} (h₁ : cellsRise l₁ = true) (h₂ : cellsRise l₂ = true)
    (hmem : ∀ c, c ∈ l₁ ↔ c ∈ l₂) : l₁ = l₂ := by
  have irrefl : Std.Irrefl fun c d : Cell => c.1 < d.1 := ⟨fun c => Nat.lt_irrefl c.1⟩
  have antisymm : Std.Antisymm fun c d : Cell => c.1 < d.1 := ⟨fun _ _ h h' => absurd h' (Nat.lt_asymm h)⟩
  exact ((cellsRise_iff_pairwise l₁).mp h₁).eq_of_mem_iff ((cellsRise_iff_pairwise l₂).mp h₂) hmem

/-- Settles O13: both lists of cells rise and hold the same cells, those the addresses read as. -/
theorem canonicalMemoryIsItsWords : Obligations.CanonicalMemoryIsItsWords := by
  intro m₁ m₂ h₁ h₂ hsize hread
  obtain ⟨hrise₁, hcells₁⟩ := (Memory.wf_iff m₁).mp h₁
  obtain ⟨hrise₂, hcells₂⟩ := (Memory.wf_iff m₂).mp h₂
  have hsame (a : Nat) (ha : a < m₁.size) : cellAt m₁.cells a = cellAt m₂.cells a := by
    have hread := hread a
    rw [Memory.read?_of_valid (by constructor <;> omega), Memory.read?_of_valid (by constructor <;> omega)] at hread
    exact Option.some.inj hread
  have hmem (c : Cell) : c ∈ m₁.cells ↔ c ∈ m₂.cells := by
    have h₁ := mem_cells_iff hrise₁ (fun c hc => (hcells₁ c hc).2) c
    have h₂ := mem_cells_iff hrise₂ (fun c hc => (hcells₂ c hc).2) c
    constructor
    · intro hc
      exact h₂.mpr (hsame c.1 (hcells₁ c hc).1 ▸ h₁.mp hc)
    · intro hc
      exact h₁.mpr ((hsame c.1 (hsize ▸ (hcells₂ c hc).1)).symm ▸ h₂.mp hc)
  have hcells : m₁.cells = m₂.cells := cells_eq_of_mem_iff hrise₁ hrise₂ hmem
  show Memory.mk m₁.size m₁.cells = Memory.mk m₂.size m₂.cells
  rw [hsize, hcells]

/-! ### Reset and the loads (R33 to R38, R185, R189) -/

/-- Settles O2: each value is a field of the state, and the last of an empty log is none. -/
theorem resetHasNoFaultAndNoOutput : Obligations.ResetHasNoFaultAndNoOutput :=
  ⟨⟨rfl, rfl, rfl⟩, fun _ _ _ => ⟨rfl, rfl, rfl⟩⟩

theorem load_inv {cfg : Config} {image inputs : List Word} (hcfg : cfg.WF)
    (himage : ∀ v ∈ image, InWord cfg.wordBits v) (hinputs : ∀ x ∈ inputs, InWord cfg.wordBits x) :
    (State.load cfg image inputs).Inv where
  width := hcfg
  canonical := Memory.wf_ofWords image
  memWords := Memory.inRange_ofWords himage
  pcBound := Nat.zero_le _
  inqWords := hinputs
  outlogWords := nofun
  faultIff := by simp [State.load]
  recordSound := by
    rintro r ⟨⟩

/-- Settles O9: the reset state is the load of the empty image without inputs. -/
theorem resetMeetsInvariant : Obligations.ResetMeetsInvariant :=
  load_inv (cfg := launchConfig) (image := []) (inputs := []) (Nat.le_refl _) (by simp) (by simp)

/-- A noun/verb load that succeeds is the load without inputs and two writes (R185). -/
theorem loadNounVerb_eq_ok {cfg : Config} {image : List Word} {noun verb : Word} {s : State}
    (h : State.loadNounVerb cfg image noun verb = .ok s) :
    s = ((State.load cfg image []).wr 1 noun).wr 2 verb := by
  simp only [State.loadNounVerb] at h
  split at h
  · split at h
    · cases h
      rfl
    · cases h
  · cases h

/-- Settles O10: the loaded memory is canonical and holds the image's words, and the two writes keep the invariant. -/
theorem loadMeetsInvariant : Obligations.LoadMeetsInvariant := by
  intro cfg image inputs hcfg himage
  refine ⟨load_inv hcfg himage, fun noun verb s hnoun hverb h => ?_⟩
  rw [loadNounVerb_eq_ok h]
  exact ((load_inv hcfg himage (by simp)).wr 1 hnoun).wr 2 hverb

end Sys2Proof.Machine
end

section
/-! The obligations about single instructions and what a step does to the queue and the log: IN, JT, JF and HALT (spec
42_io.md, 43_jump.md, 45_halt.md), and the I/O port (20_memory.md section 5). -/

namespace Sys2Proof.Machine

/-! ### IN, JT, JF and HALT (R110, R120, R121, R140) -/

/-- Settles O39: the destination check passes and the queue has a front element, so IN commits its one write. -/
theorem inputStoresTheFrontOfTheQueue : Obligations.InputStoresTheFrontOfTheQueue := by
  intro s d m2 m3 x rest hd hq
  exact ⟨_, execInp_of_cons m2 m3 hd hq, storesWord_of_mem_eq_write hd rfl, by simp [hq], rfl, rfl, ⟨rfl, rfl, rfl⟩⟩

/-- A taken jump checks its target (decision D6). -/
theorem faults_execJump_of_target {s : State} {c t : Slot} {x y : Word} {taken : Word → Bool} (i : Instr)
    (hx : ReadsAs s c x) (hy : ReadsAs s t y) (htaken : taken x = true) (hinvalid : ¬s.mem.Valid y) :
    Faults (execJump i taken c t s) s (some i.word) (.badAddress .jump none y) := by
  have htarget : s.chkTarget y = .error (.badAddress .jump none y) := if_neg hinvalid
  simpa only [execJump, resolveTwo_of_reads hx hy, htaken, htarget, if_true] using faults_faultOutcome i s _

/-- Settles O43: JT's test is `nz` and JF's its negation; the shared shape does the rest. -/
theorem jumpsFollowTheCondition : Obligations.JumpsFollowTheCondition := by
  intro s c d m3 x y hx hy
  have hnz : x ≠ 0 → aluNz x = true := decide_eq_true
  have hz : x = 0 → aluNz x = false := fun h => decide_eq_false (not_not.mpr h)
  refine ⟨fun h hvalid => ?_, fun h hinvalid => ?_, fun h => ?_, fun h hvalid => ?_, fun h hinvalid => ?_, fun h => ?_⟩
  · exact execJump_of_taken (.jt c d m3) hx hy (hnz h) hvalid
  · exact faults_execJump_of_target (.jt c d m3) hx hy (hnz h) hinvalid
  · exact execJump_of_not_taken (.jt c d m3) hx hy (hz h)
  · exact execJump_of_taken (taken := fun x => !aluNz x) (.jf c d m3) hx hy (by simp [hz h]) hvalid
  · exact faults_execJump_of_target (taken := fun x => !aluNz x) (.jf c d m3) hx hy (by simp [hz h]) hinvalid
  · exact execJump_of_not_taken (taken := fun x => !aluNz x) (.jf c d m3) hx hy (by simp [hnz h])

theorem step_ne_next_of_not_running {s : State} (h : s.status ≠ .running) (u : State) : step s ≠ .next u :=
  fun hu => h (running_of_step hu)

/-- Settles O45: a Halted state has no step. -/
theorem haltStopsTheRun : Obligations.HaltStopsTheRun :=
  fun s _ _ _ => ⟨s.halt, rfl, rfl, step_ne_next_of_not_running nofun⟩

/-! ### Only IN and OUT reach the I/O port (R56) -/

/-- An instruction leaves the queue and the log alone, or is IN and takes the front input, or is OUT and appends one
word. -/
theorem exec_io_cases {i : Instr} {s t : State} (h : exec i s = .next t) :
    (t.inq = s.inq ∧ t.outlog = s.outlog) ∨
      (∃ d m2 m3 x, i = .inp d m2 m3 ∧ s.inq = x :: t.inq ∧ t.outlog = s.outlog) ∨
      ∃ a m2 m3 x, i = .out a m2 m3 ∧ t.inq = s.inq ∧ t.outlog = s.outlog ++ [x] := by
  rcases exec_cases i s with ⟨c, e⟩ | ⟨a, v, -, -, -, e⟩ | ⟨d, m2, m3, x, rest, hi, -, hq, e⟩ |
    ⟨a, m2, m3, x, hi, -, e⟩ | ⟨y, -, -, e⟩ | ⟨-, e⟩ | ⟨-, e⟩ <;> cases h.symm.trans e
  · exact .inl ⟨rfl, rfl⟩
  · exact .inl ⟨rfl, rfl⟩
  · exact .inr (.inl ⟨d, m2, m3, x, hi, by simp [hq], rfl⟩)
  · exact .inr (.inr ⟨a, m2, m3, x, hi, rfl, rfl⟩)
  · exact .inl ⟨rfl, rfl⟩
  · exact .inl ⟨rfl, rfl⟩
  · exact .inl ⟨rfl, rfl⟩

/-- A step that changes the queue or the log has executed a decoded instruction: a rejection changes neither. -/
theorem exec_of_step_of_io_ne {s t : State} (h : step s = .next t) (hio : t.inq ≠ s.inq ∨ t.outlog ≠ s.outlog) :
    ∃ i rest, decode s.fetchWords = .ok (i, rest) ∧ exec i s = .next t := by
  obtain ⟨-, ⟨r, hd, rfl⟩ | hexec⟩ := step_next_cases h
  · obtain ⟨c, e⟩ := raiseReject_eq_raise hd
    simp [e] at hio
  · exact hexec

/-- Settles O20: of the three ways an instruction treats the port, only IN's changes the queue. -/
theorem onlyInputTakesFromTheQueue : Obligations.OnlyInputTakesFromTheQueue := by
  intro s t h hne
  obtain ⟨i, rest, hd, he⟩ := exec_of_step_of_io_ne h (.inl hne)
  rcases exec_io_cases he with ⟨hsame, -⟩ | ⟨d, m2, m3, x, rfl, hq, -⟩ | ⟨a, m2, m3, x, -, hsame, -⟩
  · exact absurd hsame hne
  · exact ⟨⟨d, m2, m3, rest, hd⟩, x, hq⟩
  · exact absurd hsame hne

/-- Settles O21: of the three ways an instruction treats the port, only OUT's changes the log. -/
theorem onlyOutputAppendsToTheLog : Obligations.OnlyOutputAppendsToTheLog := by
  intro s t h hne
  obtain ⟨i, rest, hd, he⟩ := exec_of_step_of_io_ne h (.inr hne)
  rcases exec_io_cases he with ⟨-, hsame⟩ | ⟨d, m2, m3, x, -, -, hsame⟩ | ⟨a, m2, m3, x, rfl, -, hlog⟩
  · exact absurd hsame hne
  · exact absurd hsame hne
  · exact ⟨⟨a, m2, m3, rest, hd⟩, x, hlog⟩

/-! ### Earlier output (R40, R57) -/

/-- The same state with more output before its log. -/
def State.afterOutput (s : State) (before : List Word) : State := { s with outlog := before ++ s.outlog }

section EarlierOutput
variable (s : State) (before : List Word)

/-! What reads no log is the same after more output. -/

@[simp] theorem State.afterOutput_status : (s.afterOutput before).status = s.status := rfl
@[simp] theorem State.afterOutput_fetchWords : (s.afterOutput before).fetchWords = s.fetchWords := rfl
@[simp] theorem State.afterOutput_inHead? : (s.afterOutput before).inHead? = s.inHead? := rfl
@[simp] theorem State.afterOutput_chkTarget (a : Word) : (s.afterOutput before).chkTarget a = s.chkTarget a := rfl
@[simp] theorem resolveSrc_afterOutput (k : Nat) (p : Slot) :
    resolveSrc (s.afterOutput before) k p = resolveSrc s k p := rfl
@[simp] theorem resolveDst_afterOutput (k : Nat) (p : Slot) :
    resolveDst (s.afterOutput before) k p = resolveDst s k p := rfl
@[simp] theorem resolveTwo_afterOutput (a b : Slot) : resolveTwo (s.afterOutput before) a b = resolveTwo s a b := rfl
@[simp] theorem resolveThree_afterOutput (a b d : Slot) :
    resolveThree (s.afterOutput before) a b d = resolveThree s a b d := rfl

theorem raiseReject_afterOutput (r : Reject) :
    (s.afterOutput before).raiseReject r = (s.raiseReject r).afterOutput before := by
  cases r <;> rfl

theorem outPush_afterOutput (v : Word) : (s.afterOutput before).outPush v = (s.outPush v).afterOutput before := by
  simp [State.outPush, State.afterOutput]

theorem execWrite_afterOutput (i : Instr) (f : Word → Word → Except Cause Word) (a b d : Slot) :
    execWrite i f a b d (s.afterOutput before) = mapNext (·.afterOutput before) (execWrite i f a b d s) := by
  simp only [execWrite, resolveThree_afterOutput]
  cases resolveThree s a b d with
  | error c => rfl
  | ok p =>
    simp only
    cases f p.1 p.2.1 <;> rfl

theorem execJump_afterOutput (i : Instr) (taken : Word → Bool) (c t : Slot) :
    execJump i taken c t (s.afterOutput before) = mapNext (·.afterOutput before) (execJump i taken c t s) := by
  simp only [execJump, resolveTwo_afterOutput, State.afterOutput_chkTarget]
  cases resolveTwo s c t with
  | error e => rfl
  | ok p =>
    simp only
    split
    · cases s.chkTarget p.2 <;> rfl
    · rfl

theorem execInp_afterOutput (d : Slot) (m2 m3 : Mode) :
    execInp d m2 m3 (s.afterOutput before) = mapNext (·.afterOutput before) (execInp d m2 m3 s) := by
  simp only [execInp, resolveDst_afterOutput, State.afterOutput_inHead?]
  cases resolveDst s 1 d with
  | error c => rfl
  | ok a => cases s.inHead? <;> rfl

theorem execOut_afterOutput (a : Slot) (m2 m3 : Mode) :
    execOut a m2 m3 (s.afterOutput before) = mapNext (·.afterOutput before) (execOut a m2 m3 s) := by
  simp only [execOut, resolveSrc_afterOutput, outPush_afterOutput]
  cases resolveSrc s 1 a <;> rfl

theorem exec_afterOutput (i : Instr) :
    exec i (s.afterOutput before) = mapNext (·.afterOutput before) (exec i s) := by
  cases i with
  | add a b d => exact execWrite_afterOutput ..
  | mul a b d => exact execWrite_afterOutput ..
  | lt a b d => exact execWrite_afterOutput s before _ (fun x y => .ok (aluLt x y)) a b d
  | eq a b d => exact execWrite_afterOutput s before _ (fun x y => .ok (aluEq x y)) a b d
  | inp d m2 m3 => exact execInp_afterOutput ..
  | out a m2 m3 => exact execOut_afterOutput ..
  | jt c t m3 => exact execJump_afterOutput ..
  | jf c t m3 => exact execJump_afterOutput ..
  | halt m1 m2 m3 => rfl

theorem step_afterOutput : step (s.afterOutput before) = mapNext (·.afterOutput before) (step s) := by
  simp only [step, State.afterOutput_status, State.afterOutput_fetchWords]
  cases s.status with
  | halted => rfl
  | faulted => rfl
  | running =>
    cases decode s.fetchWords with
    | error r => exact congrArg _ (raiseReject_afterOutput s before r)
    | ok p => exact exec_afterOutput s before p.1

end EarlierOutput

/-- Settles O22: the step commutes with putting output before the log. -/
theorem outputLogIsNeverRead : Obligations.OutputLogIsNeverRead := by
  intro s t before h
  exact (step_afterOutput s before).trans (congrArg _ h)

end Sys2Proof.Machine
end

section
/-! The obligations about a run (spec 40_engine_cycle.md R90, 70_reset_and_hazards.md section 2): where it ends, a run
that never does, and what the host reads back. -/

namespace Sys2Proof.Machine

/-! ### The end of a run (R90, R187) -/

theorem finalState_of_not_running {s : State} (n : Nat) (h : s.status ≠ .running) : finalState n s = some s := by
  unfold finalState
  cases hs : s.status with
  | running => exact absurd hs h
  | halted => rfl
  | faulted => rfl

theorem finalState_of_step {s u : State} (n : Nat) (h : step s = .next u) : finalState (n + 1) s = finalState n u := by
  rw [finalState]
  simp only [running_of_step h, h]

theorem finalState_add {n : Nat} {s t : State} (k : Nat) (h : finalState n s = some t) :
    finalState (n + k) s = some t := by
  induction n generalizing s with
  | zero =>
    obtain ⟨hstopped, rfl⟩ | ⟨m, u, ⟨⟩, -⟩ := finalState_cases h
    exact finalState_of_not_running _ hstopped
  | succ n ih =>
    obtain ⟨hstopped, rfl⟩ | ⟨m, u, ⟨⟩, hstep, hrest⟩ := finalState_cases h
    · exact finalState_of_not_running _ hstopped
    · rw [Nat.succ_add, finalState_of_step _ hstep]
      exact ih hrest

theorem not_running_of_finalState {n : Nat} {s t : State} (h : finalState n s = some t) : t.status ≠ .running := by
  induction n generalizing s with
  | zero =>
    obtain ⟨hstopped, rfl⟩ | ⟨m, u, ⟨⟩, -⟩ := finalState_cases h
    exact hstopped
  | succ n ih =>
    obtain ⟨hstopped, rfl⟩ | ⟨m, u, ⟨⟩, -, hrest⟩ := finalState_cases h
    · exact hstopped
    · exact ih hrest

/-- Settles O24: more fuel takes the same steps to the same state, which is not Running and so has no step. -/
theorem finalStateIsTerminal : Obligations.FinalStateIsTerminal := by
  intro n k s t h
  have hstopped := not_running_of_finalState h
  exact ⟨finalState_add k h, hstopped, step_ne_next_of_not_running hstopped⟩

/-- A state that is its own next state is a run without end (R90, decision D14). -/
theorem finalState_of_step_self {s : State} (h : step s = .next s) (fuel : Nat) : finalState fuel s = none := by
  induction fuel with
  | zero => simp [finalState, running_of_step h]
  | succ n ih => rw [finalState_of_step n h, ih]

theorem readsAs_immediate (s : State) (v : Word) : ReadsAs s ⟨.immediate, v⟩ v := rfl

/-- Settles O26: such a jump sets pc to itself, so the step answers the state it started from. -/
theorem selfJumpNeverEnds : Obligations.SelfJumpNeverEnds := by
  intro s x m3 rest hrun hx hd hpc
  have hvalid : s.mem.Valid (s.pc : Int) := by constructor <;> omega
  have htaken : aluNz x = true := decide_eq_true hx
  have hjump : step s = .next (s.setPc (s.pc : Int).toNat) :=
    (step_of_decode hrun hd).trans
      (execJump_of_taken _ (readsAs_immediate s x) (readsAs_immediate s s.pc) htaken hvalid)
  exact finalState_of_step_self hjump

/-! ### The record of the final state (R27, R187) -/

/-- The part of the invariant that needs no premise on the words: there is a record exactly when Faulted. -/
def RecordIffFaulted (s : State) : Prop := s.fault.isSome = true ↔ s.status = .faulted

theorem recordIffFaulted_raise (s : State) (w : Option Word) (c : Cause) : RecordIffFaulted (s.raise w c) := by
  simp [RecordIffFaulted]

/-- An instruction that takes no fault leaves the record alone. -/
theorem exec_fault_cases {i : Instr} {s t : State} (h : exec i s = .next t) :
    (∃ c, t = s.raise (some i.word) c) ∨ (t.fault = s.fault ∧ (t.status = s.status ∨ t.status = .halted)) := by
  rcases exec_cases i s with ⟨c, e⟩ | ⟨a, v, -, -, -, e⟩ | ⟨d, m2, m3, x, rest, -, -, -, e⟩ |
    ⟨a, m2, m3, x, -, -, e⟩ | ⟨y, -, -, e⟩ | ⟨-, e⟩ | ⟨-, e⟩ <;> cases h.symm.trans e
  · exact .inl ⟨c, rfl⟩
  · exact .inr ⟨rfl, .inl rfl⟩
  · exact .inr ⟨rfl, .inl rfl⟩
  · exact .inr ⟨rfl, .inl rfl⟩
  · exact .inr ⟨rfl, .inl rfl⟩
  · exact .inr ⟨rfl, .inl rfl⟩
  · exact .inr ⟨rfl, .inr rfl⟩

theorem step_keeps_recordIffFaulted {s t : State} (h : step s = .next t) (hs : RecordIffFaulted s) :
    RecordIffFaulted t := by
  obtain ⟨hrun, ⟨r, hd, rfl⟩ | ⟨i, rest, -, he⟩⟩ := step_next_cases h
  · obtain ⟨c, e⟩ := raiseReject_eq_raise hd
    exact e ▸ recordIffFaulted_raise s _ c
  · obtain ⟨c, rfl⟩ | ⟨hfault, hstatus⟩ := exec_fault_cases he
    · exact recordIffFaulted_raise s _ c
    · have hnone : s.fault = none := by simpa [RecordIffFaulted, hrun] using hs
      rcases hstatus with hstatus | hstatus <;> simp [RecordIffFaulted, hfault, hnone, hstatus, hrun]

/-! ### What the host reads back (R184, R185, R187) -/

/-- The host's answer at the end of a run: the view of a Halted state, the record of a Faulted one. -/
theorem resultOf_of_finalState {α : Type} (view : State → α) {fuel : Nat} {s t : State} (hs : RecordIffFaulted s)
    (h : finalState fuel s = some t) :
    (t.status = .halted ∧ resultOf view fuel s = .ok (view t)) ∨
      (t.status = .faulted ∧ ∃ r, t.fault = some r ∧ resultOf view fuel s = .err r) := by
  have hstopped := not_running_of_finalState h
  have hrecord : RecordIffFaulted t := finalState_keeps (fun _ _ => step_keeps_recordIffFaulted) h hs
  cases hfault : t.fault with
  | none =>
    have hhalted : t.status = .halted := by
      cases hstatus : t.status with
      | running => exact absurd hstatus hstopped
      | halted => rfl
      | faulted => simp [RecordIffFaulted, hfault, hstatus] at hrecord
    exact .inl ⟨hhalted, by simp only [resultOf, h, hfault]⟩
  | some r => exact .inr ⟨hrecord.mp (by simp [hfault]), r, rfl, by simp only [resultOf, h, hfault]⟩

theorem runToHalt_of_parse (fuel : Nat) {cfg : Config} {text : List Char} {image inputs : List Word}
    (hparse : parseProgram cfg.wordBits text = .ok image) (hinputs : ∀ x ∈ inputs, InWord cfg.wordBits x) :
    runToHalt fuel cfg text inputs = resultOf State.outlog fuel (State.load cfg image inputs) := by
  simp only [runToHalt, hparse, if_pos hinputs]

/-- Settles O7: the loaded state has no record, and a run keeps "a record exactly when Faulted". -/
theorem runToHaltReportsTheEnd : Obligations.RunToHaltReportsTheEnd := by
  intro fuel cfg text image inputs hparse hinputs
  rw [runToHalt_of_parse fuel hparse hinputs]
  refine ⟨fun t h => ?_, fun hnone => by simp only [resultOf, hnone]⟩
  exact resultOf_of_finalState State.outlog (by simp [RecordIffFaulted, State.load]) h

theorem runWithNounVerb_of_load (fuel : Nat) {cfg : Config} {text : List Char} {image : List Word} {noun verb : Word}
    {s : State} (hparse : parseProgram cfg.wordBits text = .ok image) (hnoun : InWord cfg.wordBits noun)
    (hverb : InWord cfg.wordBits verb) (hload : State.loadNounVerb cfg image noun verb = .ok s) :
    runWithNounVerb fuel cfg text noun verb = resultOf (fun t => t.mem.words) fuel s := by
  simp only [runWithNounVerb, hparse, if_pos (And.intro hnoun hverb), hload]

/-- Settles O8: a run keeps N, which the load sets to the image's length, and the list of a memory's words is its
reads. -/
theorem runWithNounVerbReportsMemory : Obligations.RunWithNounVerbReportsMemory := by
  intro fuel cfg text image noun verb s t hparse hnoun hverb hload h
  rw [runWithNounVerb_of_load fuel hparse hnoun hverb hload]
  cases loadNounVerb_eq_ok hload
  have hsize : t.mem.words.length = image.length := by
    rw [Memory.length_words, (runsTo_of_finalState h).size]
    simp [State.load]
  refine (resultOf_of_finalState _ (by simp [RecordIffFaulted, State.load]) h).imp_left fun ⟨hhalted, hok⟩ => ?_
  exact ⟨hhalted, t.mem.words, hok, hsize, fun i => (t.mem.words_getElem? i).symm⟩

end Sys2Proof.Machine
end

section
/-! The obligations about the program text (spec 70_reset_and_hazards.md R181, 30_encoding.md R78): what a text that
parses gives, and the text written for an image. -/

namespace Sys2Proof.Machine

/-! ### What the parser answers (R181) -/

theorem splitAt_eq_splitOn (sep : Char) (cs : List Char) : splitAt sep cs = cs.splitOn sep := by
  induction cs with
  | nil => rfl
  | cons c cs ih =>
    rw [List.splitOn_cons_eq_if_modifyHead, splitAt, ih]
    by_cases hc : c = sep
    · simp [hc]
    · cases hpieces : cs.splitOn sep with
      | nil => exact absurd hpieces (List.splitOn_ne_nil sep cs)
      | cons piece rest => simp [hc]

/-- Every token gives one word (R181). -/
theorem parseTokens_eq_ok {W k : Nat} {tokens : List (List Char)} {vs : List Word}
    (h : parseTokens W k tokens = .ok vs) : vs.length = tokens.length ∧ ∀ v ∈ vs, InWord W v := by
  induction tokens generalizing k vs with
  | nil =>
    cases h
    exact ⟨rfl, by simp⟩
  | cons token tokens ih =>
    unfold parseTokens at h
    cases hv : integerValue? (trim token) with
    | none => simp [hv] at h
    | some v =>
      by_cases hword : InWord W v
      · cases hrest : parseTokens W (k + 1) tokens with
        | error e =>
          simp only [hv, if_pos hword, hrest] at h
          cases h
        | ok rest =>
          simp only [hv, if_pos hword, hrest] at h
          cases h
          obtain ⟨hlen, hwords⟩ := ih hrest
          exact ⟨congrArg (· + 1) hlen, List.forall_mem_cons.mpr ⟨hword, hwords⟩⟩
      · simp only [hv, if_neg hword] at h
        cases h

theorem parseProgram_eq_ok {W : Nat} {text : List Char} {image : List Word} (h : parseProgram W text = .ok image) :
    ∃ line, parseTokens W 0 (splitAt ',' line) = .ok image := by
  unfold parseProgram at h
  split at h
  · exact ⟨_, h⟩
  · cases h

/-- Settles O5: a line has at least one token, and each token gives a word. -/
theorem parsedImageHoldsWords : Obligations.ParsedImageHoldsWords := by
  intro W text image h
  obtain ⟨line, hline⟩ := parseProgram_eq_ok h
  obtain ⟨hlen, hwords⟩ := parseTokens_eq_ok hline
  have hpos : 0 < (splitAt ',' line).length := by
    rw [splitAt_eq_splitOn]
    exact List.length_pos_of_ne_nil (List.splitOn_ne_nil ',' line)
  exact ⟨hlen ▸ hpos, hwords⟩

/-! ### Reading a number back (R181) -/

theorem digitValue?_of_isDigit {c : Char} (h : c.isDigit = true) : digitValue? c = some (c.toNat - '0'.toNat) :=
  if_pos (Char.isDigit_iff_toNat.mp h)

theorem digitsValue?_of_isDigit {cs : List Char} (h : ∀ c ∈ cs, c.isDigit = true) (acc : Nat) :
    digitsValue? acc cs = some (Nat.ofDigitChars 10 cs acc) := by
  induction cs generalizing acc with
  | nil => rfl
  | cons c cs ih =>
    obtain ⟨hc, hcs⟩ := List.forall_mem_cons.mp h
    simp only [digitsValue?, digitValue?_of_isDigit hc, Nat.ofDigitChars_cons, ih hcs]

theorem isDigit_of_mem_naturalText {n : Nat} {c : Char} (h : c ∈ naturalText n) : c.isDigit = true :=
  Nat.isDigit_of_mem_toDigits (by decide) (by decide) h

/-- The decimal digits of a number: one, and perhaps more. -/
theorem naturalText_eq_cons (n : Nat) : ∃ c cs, naturalText n = c :: cs ∧ c.isDigit = true := by
  obtain ⟨c, cs, h⟩ := List.exists_cons_of_ne_nil (Nat.toDigits_ne_nil (n := n) (b := 10))
  exact ⟨c, cs, h, isDigit_of_mem_naturalText (h ▸ List.mem_cons_self)⟩

theorem naturalValue?_naturalText (n : Nat) : naturalValue? (naturalText n) = some n := by
  obtain ⟨c, cs, h, -⟩ := naturalText_eq_cons n
  have hvalue := digitsValue?_of_isDigit (fun _ hc => isDigit_of_mem_naturalText (n := n) hc) 0
  rw [naturalText, Nat.ofDigitChars_ten_toDigits, ← naturalText] at hvalue
  rw [h] at hvalue ⊢
  exact hvalue

theorem integerValue?_minus (ds : List Char) :
    integerValue? ('-' :: ds) = (naturalValue? ds).map fun n => -(n : Int) := rfl

theorem integerValue?_of_isDigit {c : Char} (cs : List Char) (h : c.isDigit = true) :
    integerValue? (c :: cs) = (naturalValue? (c :: cs)).map fun n => (n : Int) := by
  unfold integerValue?
  split
  · rename_i heq
    cases heq
    exact absurd h (by decide)
  · rename_i heq
    cases heq
    exact absurd h (by decide)
  · rfl

theorem integerValue?_integerText (v : Int) : integerValue? (integerText v) = some v := by
  unfold integerText
  split
  · rename_i hneg
    rw [integerValue?_minus, naturalValue?_naturalText]
    exact congrArg some (Int.eq_neg_natAbs_of_nonpos (Int.le_of_lt hneg)).symm
  · rename_i hnonneg
    obtain ⟨c, cs, h, hdigit⟩ := naturalText_eq_cons v.natAbs
    rw [h, integerValue?_of_isDigit cs hdigit, ← h, naturalValue?_naturalText]
    exact congrArg some (Int.natAbs_of_nonneg (Int.not_lt.mp hnonneg))

/-! ### The characters of a program text (R78) -/

/-- An integer's text has no character but digits and the minus sign. -/
theorem notMem_integerText {c : Char} (hminus : c ≠ '-') (hdigit : c.isDigit = false) (v : Int) :
    c ∉ integerText v := by
  have hnatural : c ∉ naturalText v.natAbs := fun h => by simp [isDigit_of_mem_naturalText h] at hdigit
  unfold integerText
  split
  · simp [hminus, hnatural]
  · exact hnatural

theorem isBlankChar_of_mem_integerText {v : Int} {c : Char} (h : c ∈ integerText v) : isBlankChar c = false := by
  have hspace : c ≠ ' ' := fun e => notMem_integerText (by decide) (by decide) v (e ▸ h)
  have htab : c ≠ '\t' := fun e => notMem_integerText (by decide) (by decide) v (e ▸ h)
  have hreturn : c ≠ '\r' := fun e => notMem_integerText (by decide) (by decide) v (e ▸ h)
  simp [isBlankChar, hspace, htab, hreturn]

theorem integerText_ne_nil (v : Int) : integerText v ≠ [] := by
  unfold integerText
  split
  · exact List.cons_ne_nil _ _
  · exact Nat.toDigits_ne_nil

theorem dropWhile_isBlankChar_of_no_blank {cs : List Char} (h : ∀ c ∈ cs, isBlankChar c = false) :
    cs.dropWhile isBlankChar = cs :=
  List.dropWhile_eq_self_iff.mpr fun hpos => by simp [h _ (List.getElem_mem hpos)]

theorem trim_of_no_blank {cs : List Char} (h : ∀ c ∈ cs, isBlankChar c = false) : trim cs = cs := by
  have hreverse : ∀ c ∈ cs.reverse, isBlankChar c = false := fun c hc => h c (List.mem_reverse.mp hc)
  rw [trim, dropWhile_isBlankChar_of_no_blank h, dropWhile_isBlankChar_of_no_blank hreverse, List.reverse_reverse]

/-! ### Joining and splitting (R78, R181) -/

theorem joinWith_eq_intercalate (sep : List Char) (ps : List (List Char)) : joinWith sep ps = sep.intercalate ps := by
  fun_induction joinWith with
  | case1 => rfl
  | case2 p => exact List.intercalate_singleton.symm
  | case3 p q rest ih => rw [List.intercalate_cons_cons, ih]

theorem splitAt_joinWith {sep : Char} {ps : List (List Char)} (hsep : ∀ p ∈ ps, sep ∉ p) (hps : ps ≠ []) :
    splitAt sep (joinWith [sep] ps) = ps := by
  rw [splitAt_eq_splitOn, joinWith_eq_intercalate, List.splitOn_intercalate sep hsep hps]

theorem mem_joinWith {sep : List Char} {ps : List (List Char)} {c : Char} (h : c ∈ joinWith sep ps) :
    c ∈ sep ∨ ∃ p ∈ ps, c ∈ p := by
  fun_induction joinWith with
  | case1 => cases h
  | case2 p => exact .inr ⟨p, List.mem_singleton_self p, h⟩
  | case3 p q rest ih =>
    rcases List.mem_append.mp h with h | h
    · rcases List.mem_append.mp h with h | h
      · exact .inr ⟨p, List.mem_cons_self, h⟩
      · exact .inl h
    · exact (ih h).imp_right fun ⟨p', hp', hc⟩ => ⟨p', List.mem_cons_of_mem p hp', hc⟩

theorem prefix_joinWith (sep p : List Char) (ps : List (List Char)) : p <+: joinWith sep (p :: ps) := by
  cases ps with
  | nil => exact List.prefix_rfl
  | cons q rest => exact ⟨sep ++ joinWith sep (q :: rest), by simp [joinWith]⟩

/-! ### Parsing a program text back (R78, R181) -/

theorem newline_notMem_programText (image : List Word) : '\n' ∉ programText image := by
  intro h
  rcases mem_joinWith h with h | ⟨p, hp, hc⟩
  · exact absurd h (by decide)
  · obtain ⟨v, -, rfl⟩ := List.mem_map.mp hp
    exact notMem_integerText (by decide) (by decide) v hc

theorem programText_not_blank {image : List Word} (h : image ≠ []) : (programText image).all isBlankChar = false := by
  obtain ⟨v, vs, rfl⟩ := List.exists_cons_of_ne_nil h
  obtain ⟨c, hc⟩ := List.exists_mem_of_ne_nil _ (integerText_ne_nil v)
  have hmem : c ∈ programText (v :: vs) := (prefix_joinWith [','] (integerText v) (vs.map integerText)).mem hc
  exact List.all_eq_false.mpr ⟨c, hmem, by simp [isBlankChar_of_mem_integerText hc]⟩

theorem parseTokens_map_integerText {W : Nat} {image : List Word} (h : ∀ v ∈ image, InWord W v) (k : Nat) :
    parseTokens W k (image.map integerText) = .ok image := by
  induction image generalizing k with
  | nil => rfl
  | cons v vs ih =>
    obtain ⟨hv, hvs⟩ := List.forall_mem_cons.mp h
    have htrim : trim (integerText v) = integerText v := trim_of_no_blank fun _ => isBlankChar_of_mem_integerText
    simp only [List.map_cons, parseTokens, htrim, integerValue?_integerText, if_pos hv, ih hvs]

/-- Settles O6: the text is one line that is not blank, its commas separate the words' texts, and each of those denotes
its word. -/
theorem programTextParsesBack : Obligations.ProgramTextParsesBack := by
  intro W image hne hwords
  have hlines : splitAt '\n' (programText image) = [programText image] := by
    rw [splitAt_eq_splitOn, List.splitOn_eq_singleton (newline_notMem_programText image)]
  have hcomma : ∀ p ∈ image.map integerText, ',' ∉ p := by
    intro p hp
    obtain ⟨v, -, rfl⟩ := List.mem_map.mp hp
    exact notMem_integerText (by decide) (by decide) v
  have htokens : splitAt ',' (programText image) = image.map integerText :=
    splitAt_joinWith hcomma (by simpa using hne)
  simp [parseProgram, hlines, programText_not_blank hne, htokens, parseTokens_map_integerText hwords]

end Sys2Proof.Machine
end
